-- ==== Sys2Proof/Word.lean ====
section
/-! DEFINITION. The two sizes of value of the LC-3b: the 16-bit word and the 8-bit byte
(spec/00_scope.md R7, R9). Bit 0 is the least significant bit of each. -/

namespace Sys2Proof

/-- A 16-bit word: register contents, addresses, instructions. `+` and `-` wrap modulo 2^16
(R17, decision D6). -/
abbrev Word := BitVec 16

/-- The contents of one memory location: bits [7:0] (R9). -/
abbrev Byte := BitVec 8

end Sys2Proof
end

