-- ==== Sys2Proof/Config.lean ====
section
/-! DEFINITION. The named parameters of spec/00_scope.md R8 that have a decided value
(spec/92_eei_decisions.md), the two parameters of the start of execution the model has to name, and
the free values: the undefined device register bits, and when the devices act. `ExceptionMode` has one defined value,
`fault`, and is not a parameter here: it is the operation `raise` of Machine/Ops.lean. -/

/-- A step of a device agent (spec/60_exceptions.md R201). -/
inductive Sys2Proof.Machine.DeviceStep where
  /-- The keyboard step `key(c)`. -/
  | key (c : Byte)
  /-- The display step `ready`. -/
  | ready
  deriving DecidableEq, Repr

namespace Sys2Proof.Config

/-- `StrictReservedBits` (R8, R98, decision D3): whether a word whose fixed bits differ from its
format is a reserved encoding (`true`) or has those bits ignored (`false`). -/
def strictReservedBits : Bool := true

/-- `IntrInSupervisor` (R8, R187, decision D9): whether the keyboard interrupt preempts a program in
supervisor mode. -/
def intrInSupervisor : Bool := false

/-- The two readings of JSRR when BaseR is R7 (R137). -/
inductive JsrrOrder where
  /-- R7 is written first and BaseR is read after it. -/
  | linkFirst
  /-- BaseR is read first. -/
  | baseFirst
  deriving DecidableEq, Repr

/-- `JsrrR7Order` (R8, R137, decision D19). -/
def jsrrR7Order : JsrrOrder := .linkFirst

/-- `ResetState.pc` (R8, R43, R210): left OPEN by the spec, even and below xFE00.
DESIGN CHOICE, log entry 1: x3000, the value R44 names as one possible value. -/
def resetPc : Word := 0x3000

/-- The bits of a device register the spec gives no meaning, as read: "unspecified" (R196, R198 to
R200, decision D20, U5). A free value: one word for each number of reads made so far. It has no
body, so no proof can see what it is. Log entry 8. -/
opaque freeWord : Nat → Word

/-- The device steps of the boundaries that a state does not list, the first of them at 0: "any number of
device steps may happen" at each, for ever (spec/20_memory.md R72, R201). A free value: it has no body, so a
claim holds for every interleaving. Log entry 9. -/
opaque laterDeviceSteps : Nat → List Machine.DeviceStep

end Sys2Proof.Config
end

