-- ==== Sys2Proof/Syntax.lean ====
section
/-! DEFINITION. The instructions of the LC-3b: one constructor for each of the 25 rows of
spec/opcode_table.json, in the table's order. Operand names are the spec's (spec/00_scope.md R16). -/

namespace Sys2Proof

/-- A register number (spec/10_state.md R21). -/
inductive Reg where
  | r0 | r1 | r2 | r3 | r4 | r5 | r6 | r7
  deriving DecidableEq, Repr

/-- The instructions. NOT and RET are the spec's own names for words of XOR and JMP (R100); the table
gives each a row, so each has a constructor (log entry 13). -/
inductive Instr where
  /-- `ADD DR, SR1, SR2` (R110). -/
  | addReg (dr sr1 sr2 : Reg)
  /-- `ADD DR, SR1, imm5` (R111). -/
  | addImm (dr sr1 : Reg) (imm5 : BitVec 5)
  /-- `AND DR, SR1, SR2` (R112). -/
  | andReg (dr sr1 sr2 : Reg)
  /-- `AND DR, SR1, imm5` (R113). -/
  | andImm (dr sr1 : Reg) (imm5 : BitVec 5)
  /-- `BR` with the condition codes n, z, p it tests (R130, R105). -/
  | br (n z p : Bool) (pcOffset9 : BitVec 9)
  /-- `JMP BaseR` (R134). -/
  | jmp (baseR : Reg)
  /-- `RET`, JMP with BaseR = R7 (R135). -/
  | ret
  /-- `JSR LABEL` (R136). -/
  | jsr (pcOffset11 : BitVec 11)
  /-- `JSRR BaseR` (R137). -/
  | jsrr (baseR : Reg)
  /-- `LDB DR, BaseR, boffset6` (R145). -/
  | ldb (dr baseR : Reg) (boffset6 : BitVec 6)
  /-- `LDW DR, BaseR, offset6` (R147). -/
  | ldw (dr baseR : Reg) (offset6 : BitVec 6)
  /-- `LEA DR, LABEL` (R153). -/
  | lea (dr : Reg) (pcOffset9 : BitVec 9)
  /-- `XOR DR, SR1, SR2` (R114). -/
  | xorReg (dr sr1 sr2 : Reg)
  /-- `XOR DR, SR1, imm5` (R115). -/
  | xorImm (dr sr1 : Reg) (imm5 : BitVec 5)
  /-- `NOT DR, SR`, XOR with imm5 = 11111 (R116). -/
  | notReg (dr sr : Reg)
  /-- `RTI` (R163). -/
  | rti
  /-- `LSHF DR, SR, amount4` (R117). -/
  | lshf (dr sr : Reg) (amount4 : BitVec 4)
  /-- The shift word with inst[5:4] = 10, which no mnemonic produces (R99). -/
  | lshfAlt (dr sr : Reg) (amount4 : BitVec 4)
  /-- `RSHFL DR, SR, amount4` (R118). -/
  | rshfl (dr sr : Reg) (amount4 : BitVec 4)
  /-- `RSHFA DR, SR, amount4` (R119). -/
  | rshfa (dr sr : Reg) (amount4 : BitVec 4)
  /-- `STB SR, BaseR, boffset6` (R149). -/
  | stb (sr baseR : Reg) (boffset6 : BitVec 6)
  /-- `STW SR, BaseR, offset6` (R151). -/
  | stw (sr baseR : Reg) (offset6 : BitVec 6)
  /-- `TRAP trapvect8` (R160). -/
  | trap (trapvect8 : BitVec 8)
  /-- A word with the reserved opcode 1010; `low` is inst[11:0] (R97). -/
  | reserved1010 (low : BitVec 12)
  /-- A word with the reserved opcode 1011; `low` is inst[11:0] (R97). -/
  | reserved1011 (low : BitVec 12)
  deriving DecidableEq, Repr

end Sys2Proof
end

