-- ==== Sys2Proof/WellFormed.lean ====
section
/-! DEFINITION. Which terms of `Instr` the decoder can answer with. Every operand's range is in its
type (spec/30_encoding.md R90 to R96); what is left are the two words that have two rows in the
table (R100): they are written by their own names, NOT and RET. -/

namespace Sys2Proof

/-- The term is the one the decoder gives for its word: `xorImm` with imm5 = 11111 is written
`notReg`, and `jmp` through R7 is written `ret` (R100, log entry 13). -/
def Instr.wellFormed (i : Instr) : Bool :=
  match i with
  | .xorImm _ _ imm5 => imm5 != 0b11111#5
  | .jmp baseR => baseR != .r7
  | .addReg _ _ _ | .addImm _ _ _ | .andReg _ _ _ | .andImm _ _ _ | .br _ _ _ _ | .ret | .jsr _
  | .jsrr _ | .ldb _ _ _ | .ldw _ _ _ | .lea _ _ | .xorReg _ _ _ | .notReg _ _ | .rti
  | .lshf _ _ _ | .lshfAlt _ _ _ | .rshfl _ _ _ | .rshfa _ _ _ | .stb _ _ _ | .stw _ _ _
  | .trap _ | .reserved1010 _ | .reserved1011 _ => true

end Sys2Proof
end

