-- ==== Sys2Proof/Decode.lean ====
section
/-! DEFINITION. The decoder, total on all 65,536 words and on any bytes, and the encoder
(spec/30_encoding.md R80 to R85, R97 to R101). -/

namespace Sys2Proof

/-! ## Fields (R81) -/

/-- A word with a field's bits at a position, the field's bit 0 at bit `pos`, and zeros elsewhere. -/
def field {n : Nat} (pos : Nat) (x : BitVec n) : Word := x.setWidth 16 <<< pos

/-- A word with one bit at a position and zeros elsewhere. -/
def flagAt (pos : Nat) (b : Bool) : Word := field pos (BitVec.ofBool b)

/-- The register a three-bit field names: "numbered from 000 to 111" (R21). -/
def Reg.ofCode (c : BitVec 3) : Reg :=
  match c.getLsbD 2, c.getLsbD 1, c.getLsbD 0 with
  | false, false, false => .r0
  | false, false, true => .r1
  | false, true, false => .r2
  | false, true, true => .r3
  | true, false, false => .r4
  | true, false, true => .r5
  | true, true, false => .r6
  | true, true, true => .r7

/-- The number of a register, as an instruction field holds it (R21). -/
def Reg.code : Reg → BitVec 3
  | .r0 => 0b000 | .r1 => 0b001 | .r2 => 0b010 | .r3 => 0b011
  | .r4 => 0b100 | .r5 => 0b101 | .r6 => 0b110 | .r7 => 0b111

/-- Bits [11:9]: DR of the operate and load instructions, SR of STB and STW. -/
def fieldDr (w : Word) : Reg := Reg.ofCode (w.extractLsb' 9 3)

/-- Bits [8:6]: SR1, the SR of NOT and the shifts, BaseR. -/
def fieldSr1 (w : Word) : Reg := Reg.ofCode (w.extractLsb' 6 3)

/-- Bits [2:0]: SR2. -/
def fieldSr2 (w : Word) : Reg := Reg.ofCode (w.extractLsb' 0 3)

/-- imm5, bits [4:0]. -/
def fieldImm5 (w : Word) : BitVec 5 := w.extractLsb' 0 5

/-- amount4, bits [3:0]. -/
def fieldAmount4 (w : Word) : BitVec 4 := w.extractLsb' 0 4

/-- boffset6 and offset6, bits [5:0]. -/
def fieldOffset6 (w : Word) : BitVec 6 := w.extractLsb' 0 6

/-- PCoffset9, bits [8:0]. -/
def fieldPcOffset9 (w : Word) : BitVec 9 := w.extractLsb' 0 9

/-- PCoffset11, bits [10:0]. -/
def fieldPcOffset11 (w : Word) : BitVec 11 := w.extractLsb' 0 11

/-- trapvect8, bits [7:0]. -/
def fieldTrapvect8 (w : Word) : BitVec 8 := w.extractLsb' 0 8

/-- Bits [11:0]. -/
def fieldLow12 (w : Word) : BitVec 12 := w.extractLsb' 0 12

/-! ## The decoder -/

/-- What a word decodes to (R85). A reserved opcode (R97) is the instruction `reserved1010` or
`reserved1011`. -/
inductive Decoded where
  | instr (i : Instr)
  /-- A word of a defined opcode whose fixed bits differ from its format's (R98). -/
  | reservedEncoding (w : Word)
  deriving DecidableEq, Repr

/-- The check of a format's fixed bits (R98): with `strict`, a word that does not have them is a
reserved encoding; without, the bits are ignored. -/
def checkFixed (strict : Bool) (fixedBitsHold : Bool) (w : Word) (i : Instr) : Decoded :=
  if strict && !fixedBitsHold then .reservedEncoding w else .instr i

/-- The instruction of an XOR immediate word: NOT where imm5 = 11111 (R100). -/
def xorImmOrNot (dr sr1 : Reg) (imm5 : BitVec 5) : Instr :=
  if imm5 = 0b11111#5 then .notReg dr sr1 else .xorImm dr sr1 imm5

/-- The instruction of a JMP word: RET where BaseR = 111 (R100). -/
def jmpOrRet (baseR : Reg) : Instr :=
  if baseR = .r7 then .ret else .jmp baseR

/-- The decoder of R85 for either value of `StrictReservedBits`: the opcode inst[15:12], then the
selection bits of R84, then the fixed bits of R98, then the fields of R81. -/
def decodeWordWith (strict : Bool) (w : Word) : Decoded :=
  match w.getLsbD 15, w.getLsbD 14, w.getLsbD 13, w.getLsbD 12 with
  | false, false, false, false =>
    .instr (.br (w.getLsbD 11) (w.getLsbD 10) (w.getLsbD 9) (fieldPcOffset9 w))
  | false, false, false, true =>
    if w.getLsbD 5 then .instr (.addImm (fieldDr w) (fieldSr1 w) (fieldImm5 w))
    else checkFixed strict (w.extractLsb' 3 2 == 0b00#2) w (.addReg (fieldDr w) (fieldSr1 w) (fieldSr2 w))
  | false, false, true, false => .instr (.ldb (fieldDr w) (fieldSr1 w) (fieldOffset6 w))
  | false, false, true, true => .instr (.stb (fieldDr w) (fieldSr1 w) (fieldOffset6 w))
  | false, true, false, false =>
    if w.getLsbD 11 then .instr (.jsr (fieldPcOffset11 w))
    else checkFixed strict (w.extractLsb' 9 2 == 0b00#2 && w.extractLsb' 0 6 == 0b000000#6) w
      (.jsrr (fieldSr1 w))
  | false, true, false, true =>
    if w.getLsbD 5 then .instr (.andImm (fieldDr w) (fieldSr1 w) (fieldImm5 w))
    else checkFixed strict (w.extractLsb' 3 2 == 0b00#2) w (.andReg (fieldDr w) (fieldSr1 w) (fieldSr2 w))
  | false, true, true, false => .instr (.ldw (fieldDr w) (fieldSr1 w) (fieldOffset6 w))
  | false, true, true, true => .instr (.stw (fieldDr w) (fieldSr1 w) (fieldOffset6 w))
  | true, false, false, false =>
    checkFixed strict (w.extractLsb' 0 12 == 0b000000000000#12) w .rti
  | true, false, false, true =>
    if w.getLsbD 5 then .instr (xorImmOrNot (fieldDr w) (fieldSr1 w) (fieldImm5 w))
    else checkFixed strict (w.extractLsb' 3 2 == 0b00#2) w (.xorReg (fieldDr w) (fieldSr1 w) (fieldSr2 w))
  | true, false, true, false => .instr (.reserved1010 (fieldLow12 w))
  | true, false, true, true => .instr (.reserved1011 (fieldLow12 w))
  | true, true, false, false =>
    checkFixed strict (w.extractLsb' 9 3 == 0b000#3 && w.extractLsb' 0 6 == 0b000000#6) w
      (jmpOrRet (fieldSr1 w))
  | true, true, false, true =>
    match w.getLsbD 5, w.getLsbD 4 with
    | false, false => .instr (.lshf (fieldDr w) (fieldSr1 w) (fieldAmount4 w))
    | true, false => .instr (.lshfAlt (fieldDr w) (fieldSr1 w) (fieldAmount4 w))
    | false, true => .instr (.rshfl (fieldDr w) (fieldSr1 w) (fieldAmount4 w))
    | true, true => .instr (.rshfa (fieldDr w) (fieldSr1 w) (fieldAmount4 w))
  | true, true, true, false => .instr (.lea (fieldDr w) (fieldPcOffset9 w))
  | true, true, true, true =>
    checkFixed strict (w.extractLsb' 8 4 == 0b0000#4) w (.trap (fieldTrapvect8 w))

/-- The decoder with the decided value of `StrictReservedBits`. -/
def decodeWord (w : Word) : Decoded := decodeWordWith Config.strictReservedBits w

/-- The word whose less significant byte is `lo` and whose more significant byte is `hi` (R52). -/
def wordOfBytes (lo hi : Byte) : Word := field 8 hi ||| field 0 lo

/-- Bits [7:0] of a word: the byte at its lower address (R52). -/
def lowByte (w : Word) : Byte := w.extractLsb' 0 8

/-- Bits [15:8] of a word: the byte at its higher address (R52). -/
def highByte (w : Word) : Byte := w.extractLsb' 8 8

/-- What a list of bytes decodes to. -/
inductive BytesDecoded where
  /-- The first word's decoding, and the bytes after it. -/
  | word (d : Decoded) (rest : List Byte)
  /-- Fewer than the two bytes an instruction occupies (R80). -/
  | truncated
  deriving DecidableEq, Repr

/-- The decoder on bytes in address order: an instruction is stored as a little-endian word (R52, R80). -/
def decodeBytes : List Byte → BytesDecoded
  | lo :: hi :: rest => .word (decodeWord (wordOfBytes lo hi)) rest
  | [_] => .truncated
  | [] => .truncated

/-- The instruction the decoder reads from an instruction whose bits are `w`, bit 0 the least
significant; the bits from `nbits` up are 0. The word is laid out as the hardware stores it and given
to the decoder on bytes. -/
def decodeTableWord (nbits w : Nat) : Option Instr :=
  let v : Word := BitVec.ofNat 16 (w % 2 ^ nbits)
  match decodeBytes [lowByte v, highByte v] with
  | .word (.instr i) _ => some i
  | .word (.reservedEncoding _) _ => none
  | .truncated => none

/-! ## The encoder (R82) -/

/-- The word of an instruction: each field of R82's formats at the position of R81. A fixed field of zeros
is left out. -/
def encode : Instr → Word
  | .addReg dr sr1 sr2 => field 12 0b0001#4 ||| field 9 dr.code ||| field 6 sr1.code ||| field 0 sr2.code
  | .addImm dr sr1 imm5 =>
    field 12 0b0001#4 ||| field 9 dr.code ||| field 6 sr1.code ||| field 5 0b1#1 ||| field 0 imm5
  | .andReg dr sr1 sr2 => field 12 0b0101#4 ||| field 9 dr.code ||| field 6 sr1.code ||| field 0 sr2.code
  | .andImm dr sr1 imm5 =>
    field 12 0b0101#4 ||| field 9 dr.code ||| field 6 sr1.code ||| field 5 0b1#1 ||| field 0 imm5
  | .br n z p pcOffset9 =>
    field 12 0b0000#4 ||| flagAt 11 n ||| flagAt 10 z ||| flagAt 9 p ||| field 0 pcOffset9
  | .jmp baseR => field 12 0b1100#4 ||| field 6 baseR.code
  | .ret => field 12 0b1100#4 ||| field 6 0b111#3
  | .jsr pcOffset11 => field 12 0b0100#4 ||| field 11 0b1#1 ||| field 0 pcOffset11
  | .jsrr baseR => field 12 0b0100#4 ||| field 6 baseR.code
  | .ldb dr baseR boffset6 =>
    field 12 0b0010#4 ||| field 9 dr.code ||| field 6 baseR.code ||| field 0 boffset6
  | .ldw dr baseR offset6 =>
    field 12 0b0110#4 ||| field 9 dr.code ||| field 6 baseR.code ||| field 0 offset6
  | .lea dr pcOffset9 => field 12 0b1110#4 ||| field 9 dr.code ||| field 0 pcOffset9
  | .xorReg dr sr1 sr2 => field 12 0b1001#4 ||| field 9 dr.code ||| field 6 sr1.code ||| field 0 sr2.code
  | .xorImm dr sr1 imm5 =>
    field 12 0b1001#4 ||| field 9 dr.code ||| field 6 sr1.code ||| field 5 0b1#1 ||| field 0 imm5
  | .notReg dr sr =>
    field 12 0b1001#4 ||| field 9 dr.code ||| field 6 sr.code ||| field 5 0b1#1 ||| field 0 0b11111#5
  | .rti => field 12 0b1000#4
  | .lshf dr sr amount4 => field 12 0b1101#4 ||| field 9 dr.code ||| field 6 sr.code ||| field 0 amount4
  | .lshfAlt dr sr amount4 =>
    field 12 0b1101#4 ||| field 9 dr.code ||| field 6 sr.code ||| field 4 0b10#2 ||| field 0 amount4
  | .rshfl dr sr amount4 =>
    field 12 0b1101#4 ||| field 9 dr.code ||| field 6 sr.code ||| field 4 0b01#2 ||| field 0 amount4
  | .rshfa dr sr amount4 =>
    field 12 0b1101#4 ||| field 9 dr.code ||| field 6 sr.code ||| field 4 0b11#2 ||| field 0 amount4
  | .stb sr baseR boffset6 =>
    field 12 0b0011#4 ||| field 9 sr.code ||| field 6 baseR.code ||| field 0 boffset6
  | .stw sr baseR offset6 =>
    field 12 0b0111#4 ||| field 9 sr.code ||| field 6 baseR.code ||| field 0 offset6
  | .trap trapvect8 => field 12 0b1111#4 ||| field 0 trapvect8
  | .reserved1010 low => field 12 0b1010#4 ||| field 0 low
  | .reserved1011 low => field 12 0b1011#4 ||| field 0 low

end Sys2Proof
end

