-- ==== Sys2Proof/Machine/State.lean ====
section
/-! DEFINITION. The state of the machine (spec/10_state.md R20; the list is INVENTORY.md '## State'),
the reasons a step can stop, and the state after reset. -/

namespace Sys2Proof.Machine

/-- The privilege mode, PSR[15]: 0 supervisor, 1 user (R35). -/
inductive Mode where
  | supervisor
  | user
  deriving DecidableEq, Repr

/-- The five device registers of Table A.3 (R195). -/
inductive DeviceRegister where
  | kbsr | kbdr | dsr | ddr | mcr
  deriving DecidableEq, Repr

/-- Storage, the addresses x0000 to xFDFF (R38, R51), as address and byte pairs in the canonical form
of `Memory.wf` (Machine/Ops.lean). -/
abbrev Memory := List Host.Cell

/-- Why the machine stops: the state `Faulted(E, A)` of spec/60_exceptions.md R180. `a` is A, the
address of the instruction that raised, or for interrupt initiation the PC that was to be pushed.
Each constructor is safe: the machine has no next state, so nothing can be proved of what the
hardware does after it. -/
inductive Fault where
  /-- The illegal operand address exception (R176); `v` is the odd value. Raised by JMP, RET, JSRR,
  LDW, STW, TRAP, RTI and interrupt initiation. Safe. -/
  | illegalOperandAddress (v a : Word)
  /-- The privilege mode violation (R177). Raised by RTI in user mode. Safe. -/
  | privilegeModeViolation (a : Word)
  /-- A word with opcode 1010 or 1011 (R97, R178); `inst` is the word. Raised by `reserved1010` and
  `reserved1011`. Safe. -/
  | reservedOpcode (inst a : Word)
  /-- A word of a defined opcode with other fixed bits (R98, R178); `inst` is the word. Raised by the
  instruction cycle, after decoding. Safe. -/
  | reservedEncoding (inst a : Word)
  deriving DecidableEq, Repr

/-- Why the model gives a step no meaning (R19). Each constructor is safe: there is no next state. -/
inductive Refusal where
  /-- An instruction whose arm of `exec` has no meaning yet. Raised by no arm. Safe. -/
  | notModelled (mnemonic : String)
  /-- A byte access to the device region (R60 part c). Raised by LDB and STB. Safe. -/
  | deviceByteAccess (a : Word)
  /-- A word access to a device address with no register (R60 part b). Raised by LDW, STW, RTI and
  interrupt initiation. Safe. -/
  | unassignedDeviceAddress (a : Word)
  /-- An instruction fetch in the device region (R71). Raised by the instruction cycle. Safe. -/
  | deviceFetch (a : Word)
  /-- A word access at an odd address, for which `MemRead` and `MemWrite` are not defined (R57, R59).
  Every instruction checks first; only a fetch with an odd PC, in a state no run reaches (R28), raises
  it. Safe. Log entry 14. -/
  | unalignedWordAccess (a : Word)
  deriving DecidableEq, Repr

/-- The state (R20). -/
structure State where
  r0 : Word
  r1 : Word
  r2 : Word
  r3 : Word
  r4 : Word
  r5 : Word
  r7 : Word
  /-- The supervisor stack pointer: R6 while PSR[15] = 0 (R23, R37). -/
  ssp : Word
  /-- The user stack pointer: R6 while PSR[15] = 1 (R23, R37). -/
  usp : Word
  /-- The program counter (R26). -/
  pc : Word
  /-- PSR[15] (R35). -/
  priv : Mode
  /-- PSR[2] (R30). -/
  n : Bool
  /-- PSR[1] (R30). -/
  z : Bool
  /-- PSR[0] (R30). -/
  p : Bool
  /-- The bytes x0000 to xFDFF (R38). -/
  mem : Memory
  /-- KBSR[15], the keyboard's ready bit (R196). -/
  kbReady : Bool
  /-- KBSR[14], the keyboard's interrupt enable bit IE (R196). -/
  kbIE : Bool
  /-- KBDR[7:0], the last character typed (R197). -/
  kbdr : Byte
  /-- DSR[15], the display's ready bit (R198). -/
  dsReady : Bool
  /-- DDR[7:0], the character last sent to the display (R199). No read gives it: a read of the DDR is
  unspecified. -/
  ddr : Byte
  /-- MCR[15], the clock enable bit (R200). -/
  clockEnable : Bool
  /-- The output stream, oldest character first (R202). -/
  console : List Byte
  /-- The device steps of the next boundaries: one list for each instruction boundary, the next boundary
  first (R72, R201, R202). The boundaries after these have the free value `Config.laterDeviceSteps`.
  Log entry 9. -/
  schedule : List (List DeviceStep)
  /-- The model's own field: how many boundaries have passed since `schedule` was used up; it selects the
  next one's free value. Log entry 9. -/
  boundaryCount : Nat
  /-- The model's own field: how many reads of undefined device register bits have been made; it
  selects the next one's free value. Log entry 8. -/
  freeCount : Nat
  deriving DecidableEq, Repr

/-- The state when execution starts (R43). KBSR[15] = 0, KBSR[14] = 0 and MCR[15] = 1 are the spec's;
every other value is the model's DESIGN CHOICE (log entries 1 to 6, 8, 9). -/
def State.reset : State where
  r0 := 0
  r1 := 0
  r2 := 0
  r3 := 0
  r4 := 0
  r5 := 0
  r7 := 0
  ssp := 0
  usp := 0
  pc := Config.resetPc
  priv := .supervisor
  n := false
  z := true
  p := false
  mem := []
  kbReady := false
  kbIE := false
  kbdr := 0
  dsReady := false
  ddr := 0
  clockEnable := true
  console := []
  schedule := [[]]
  boundaryCount := 0
  freeCount := 0

end Sys2Proof.Machine
end

