-- ==== Sys2Proof/Machine/Devices.lean ====
section
/-! DEFINITION. The five device registers and the two device agents (spec/60_exceptions.md R195 to
R203, decisions D11, D20). -/

namespace Sys2Proof.Machine

/-- The device region, xFE00 to xFFFF (R51). -/
def inDeviceRegion (a : Word) : Bool := decide (0xFE00 ≤ a.toNat)

/-- The device register at an address; `none` at an address with no register (R65, R195, R203). -/
def deviceAt (a : Word) : Option DeviceRegister :=
  if a = 0xFE00 then some .kbsr
  else if a = 0xFE02 then some .kbdr
  else if a = 0xFE04 then some .dsr
  else if a = 0xFE06 then some .ddr
  else if a = 0xFFFE then some .mcr
  else none

/-- The undefined bits of the next read: the free value the state's count selects. -/
def freeBits (s : State) : Word := Config.freeWord s.freeCount

/-- The count after a read of undefined bits. -/
def countFreeRead (s : State) : State := { s with freeCount := s.freeCount + 1 }

/-- A word read of a device register: its value and the state after the read's side effects.
KBSR (R196), KBDR with the clearing of the ready bit (R197), DSR (R198), DDR (R199), MCR (R200). -/
def readDevice (d : DeviceRegister) (s : State) : Word × State :=
  match d with
  | .kbsr =>
    (flagAt 15 s.kbReady ||| flagAt 14 s.kbIE ||| field 0 ((freeBits s).extractLsb' 0 14),
      countFreeRead s)
  | .kbdr => (field 0 s.kbdr, { s with kbReady := false })
  | .dsr => (flagAt 15 s.dsReady ||| field 0 ((freeBits s).extractLsb' 0 15), countFreeRead s)
  | .ddr => (freeBits s, countFreeRead s)
  | .mcr => (flagAt 15 s.clockEnable ||| field 0 ((freeBits s).extractLsb' 0 15), countFreeRead s)

/-- A write of the DDR: while the display is ready the character v[7:0] is displayed and the ready bit
is cleared (R199). DESIGN CHOICE, log entry 10: while it is not, the character is dropped, one of the
two treatments R199 allows. -/
def writeDdr (v : Word) (s : State) : State :=
  if s.dsReady then
    { s with ddr := lowByte v
             console := s.console ++ [lowByte v]
             dsReady := false }
  else s

/-- A word write of a device register. KBSR: only IE is written (R196). KBDR, DSR: ignored (R197,
R198). MCR: bit 15 = 0 stops the clock, bit 15 = 1 changes nothing (R200). -/
def writeDevice (d : DeviceRegister) (v : Word) (s : State) : State :=
  match d with
  | .kbsr => { s with kbIE := v.getLsbD 14 }
  | .kbdr => s
  | .dsr => s
  | .ddr => writeDdr v s
  | .mcr => { s with clockEnable := s.clockEnable && v.getLsbD 15 }

/-- A step of a device agent (R201). A character not yet read is overwritten (log entry 11). `ready` is
enabled only while DSR[15] = 0; while it is 1 the step changes nothing. -/
def deviceStep (s : State) (e : DeviceStep) : State :=
  match e with
  | .key c => { s with kbdr := c, kbReady := true }
  | .ready => { s with dsReady := true }

/-- The device steps of the `n`-th boundary to come: those listed, then the free value, whose first `count`
have passed. -/
def stepsAfter (schedule : List (List DeviceStep)) (count n : Nat) : List DeviceStep :=
  match schedule, n with
  | [], n => Config.laterDeviceSteps (count + n)
  | steps :: _, 0 => steps
  | _ :: rest, n + 1 => stepsAfter rest count n

/-- The device steps of the `n`-th boundary to come, the next one at 0 (R72, R201; log entry 9). -/
def stepsAt (s : State) (n : Nat) : List DeviceStep := stepsAfter s.schedule s.boundaryCount n

/-- One boundary is used up. -/
def passBoundary (s : State) : State :=
  { s with schedule := s.schedule.tail
           boundaryCount := if s.schedule.isEmpty then s.boundaryCount + 1 else s.boundaryCount }

/-- The device steps of the next instruction boundary, in their order (R72, R201; log entry 9). -/
def deviceBoundary (s : State) : State := (stepsAt s 0).foldl deviceStep (passBoundary s)

/-- The keyboard's interrupt request: KBSR[15] AND KBSR[14] (R184). -/
def interruptRequest (s : State) : Bool := s.kbReady && s.kbIE

end Sys2Proof.Machine
end

