-- ==== Sys2Proof/Machine/Ops.lean ====
section
/-! DEFINITION. The shared operations: storage, `MemRead` and `MemWrite` (spec/20_memory.md R56 to
R60), the general registers (spec/10_state.md R21, R23), raising an exception
(spec/60_exceptions.md R180), interrupt initiation (R186) and the return from it
(spec/43_system.md R163). -/

namespace Sys2Proof.Machine

/-- The three outcomes of this machine. -/
abbrev Result := Host.Outcome State Fault Refusal

/-! ## Storage -/

/-- What an unlisted address reads as. DESIGN CHOICE, log entry 5: x00; the spec leaves the initial
memory `MemImage` open (R43). -/
def unlistedByte (_a : Nat) : Byte := 0

/-- Storage has the addresses below xFE00 (R51). -/
def storageEnd : Nat := 0xFE00

/-- The byte at an address. -/
def Memory.read : Memory → Nat → Byte
  | [], a => unlistedByte a
  | (k, b) :: m, a => if k = a then b else Memory.read m a

/-- The memory with no entry at an address. -/
def Memory.erase : Memory → Nat → Memory
  | [], _ => []
  | (k, b) :: m, a => if k = a then Memory.erase m a else (k, b) :: Memory.erase m a

/-- The memory with an entry put before the first higher address. -/
def Memory.insert : Memory → Nat → Byte → Memory
  | [], a, b => [(a, b)]
  | (k, c) :: m, a, b => if a < k then (a, b) :: (k, c) :: m else (k, c) :: Memory.insert m a b

/-- The memory after a byte is stored: the byte an unlisted address reads as is stored by listing
nothing. -/
def Memory.write (m : Memory) (a : Nat) (b : Byte) : Memory :=
  if b = unlistedByte a then Memory.erase m a else Memory.insert (Memory.erase m a) a b

/-- The canonical form from an address up. -/
def Memory.wfFrom : Nat → Memory → Bool
  | _, [] => true
  | lo, (k, b) :: m =>
    decide (lo ≤ k) && decide (k < storageEnd) && b != unlistedByte k && Memory.wfFrom (k + 1) m

/-- The canonical form: addresses strictly rising and below xFE00, no entry equal to what an unlisted
address reads as. -/
def Memory.wf (m : Memory) : Bool := Memory.wfFrom 0 m

/-! ## Memory accesses -/

/-- A read: its value and the state after it, or the refusal of the access. -/
inductive ReadResult (α : Type) where
  | value (v : α) (s : State)
  | refused (r : Refusal)
  deriving DecidableEq, Repr

/-- Go on with the value of a read; a refused access is a refused step (R155). -/
def ReadResult.andThen {α : Type} (r : ReadResult α) (f : α → State → Result) : Result :=
  match r with
  | .value v s => f v s
  | .refused e => .refused e

/-- Go on from the next state of an outcome. -/
def andThenNext (o : Result) (f : State → Result) : Result :=
  match o with
  | .next s => f s
  | .fault e => .fault e
  | .refused e => .refused e

/-- Bit [0] of a value used as a word address or a new PC is 1 (R54, R176). -/
def isOdd (a : Word) : Bool := a.getLsbD 0

/-- `MemRead(addr, 1)` (R56, R60 part c). -/
def readByte (a : Word) (s : State) : ReadResult Byte :=
  if inDeviceRegion a then .refused (.deviceByteAccess a)
  else .value (Memory.read s.mem a.toNat) s

/-- The word stored at an address: its low byte at `a`, its high byte at `a + 1` (R52, R57). -/
def storageWord (m : Memory) (a : Nat) : Word :=
  wordOfBytes (Memory.read m a) (Memory.read m (a + 1))

/-- `MemRead(addr, 2)` (R57, R60 parts a, b). -/
def readWord (a : Word) (s : State) : ReadResult Word :=
  if isOdd a then .refused (.unalignedWordAccess a)
  else if inDeviceRegion a then
    match deviceAt a with
    | some d => .value (readDevice d s).1 (readDevice d s).2
    | none => .refused (.unassignedDeviceAddress a)
  else .value (storageWord s.mem a.toNat) s

/-- The state after a byte is stored in storage. -/
def storeByte (a : Nat) (b : Byte) (s : State) : State := { s with mem := Memory.write s.mem a b }

/-- The state after a word is stored in storage, little endian (R52, R59). -/
def storeWord (a : Nat) (v : Word) (s : State) : State :=
  storeByte (a + 1) (highByte v) (storeByte a (lowByte v) s)

/-- `MemWrite(addr, 1, v)` (R58, R60 part c). -/
def writeByte (a : Word) (b : Byte) (s : State) : Result :=
  if inDeviceRegion a then .refused (.deviceByteAccess a) else .next (storeByte a.toNat b s)

/-- `MemWrite(addr, 2, v)` (R59, R60 parts a, b). -/
def writeWord (a : Word) (v : Word) (s : State) : Result :=
  if isOdd a then .refused (.unalignedWordAccess a)
  else if inDeviceRegion a then
    match deviceAt a with
    | some d => .next (writeDevice d v s)
    | none => .refused (.unassignedDeviceAddress a)
  else .next (storeWord a.toNat v s)

/-- Instruction fetch: `MemRead(A, 2)` (R70), refused in the device region (R71). -/
def fetchWord (a : Word) (s : State) : ReadResult Word :=
  if inDeviceRegion a then .refused (.deviceFetch a) else readWord a s

/-! ## Registers -/

/-- `x[i]`: R6 is SSP or USP by the privilege mode (R17, R23). -/
def State.reg (s : State) : Reg → Word
  | .r0 => s.r0
  | .r1 => s.r1
  | .r2 => s.r2
  | .r3 => s.r3
  | .r4 => s.r4
  | .r5 => s.r5
  | .r6 => match s.priv with
    | .supervisor => s.ssp
    | .user => s.usp
  | .r7 => s.r7

/-- `x[i] <- v` (R17, R23). -/
def State.setReg (s : State) (r : Reg) (v : Word) : State :=
  match r with
  | .r0 => { s with r0 := v }
  | .r1 => { s with r1 := v }
  | .r2 => { s with r2 := v }
  | .r3 => { s with r3 := v }
  | .r4 => { s with r4 := v }
  | .r5 => { s with r5 := v }
  | .r6 => match s.priv with
    | .supervisor => { s with ssp := v }
    | .user => { s with usp := v }
  | .r7 => { s with r7 := v }

/-! ## Exceptions and the interrupt -/

/-- `raise E`: the terminal state `Faulted(E, A)`; nothing has been written and nothing further
executes (R180, decision D1). -/
def raise (e : Word → Fault) (a : Word) : Result := .fault (e a)

/-- The address of the executing instruction, whose `pc` is that address plus 2 (R27). -/
def instrAddress (s : State) : Word := s.pc - 2

/-- `raise E` by an executing instruction. -/
def raiseAtInstr (e : Word → Fault) (s : State) : Result := raise e (instrAddress s)

/-- PSR[15] of a mode (R35). -/
def Mode.bit : Mode → Bool
  | .supervisor => false
  | .user => true

/-- The mode PSR[15] names (R35). -/
def Mode.ofBit (b : Bool) : Mode := if b then .user else .supervisor

/-- The PSR as it is pushed, PSR[14:3] = 0 (R36, R186). -/
def psrWord (s : State) : Word :=
  flagAt 15 s.priv.bit ||| flagAt 2 s.n ||| flagAt 1 s.z ||| flagAt 0 s.p

/-- The PSR loaded from a word, of which bits 15, 2, 1, 0 are taken (R36, R163). -/
def loadPsr (w : Word) (s : State) : State :=
  { s with priv := Mode.ofBit (w.getLsbD 15)
           n := w.getLsbD 2
           z := w.getLsbD 1
           p := w.getLsbD 0 }

/-- The priority condition of the keyboard interrupt (R187). -/
def interruptPriority (s : State) : Bool := s.priv == .user || Config.intrInSupervisor

/-- Whether interrupt initiation is performed at a boundary of a running processor (R185). -/
def interruptTaken (s : State) : Bool := interruptRequest s && interruptPriority s

/-- INTV of the keyboard (R186 step 5). -/
def keyboardIntv : BitVec 8 := 0x40

/-- The interrupt vector table entry of an INTV: x0200 + (INTV << 1) (R65, R186 step 6). -/
def interruptVectorAddress (intv : BitVec 8) : Word := 0x0200 + (intv.setWidth 16 <<< 1)

/-- The two pushes of interrupt initiation: the PSR at s - 2, then the PC at s - 4 (R186, decision D8).
The mode is supervisor already, the PSR word is the interrupted process's. -/
def pushPsrAndPc (sp psr pc : Word) (s : State) : Result :=
  andThenNext (writeWord (sp - 2) psr s) fun s' => writeWord (sp - 4) pc s'

/-- Interrupt initiation, one atomic step (R186). `s.pc` is the address of the instruction not yet
fetched. The vector is read before the pushes (log entry 12). -/
def initiateInterrupt (s : State) : Result :=
  if isOdd s.ssp then raise (.illegalOperandAddress s.ssp) s.pc
  else
    (readWord (interruptVectorAddress keyboardIntv) s).andThen fun v s1 =>
      if isOdd v then raise (.illegalOperandAddress v) s.pc
      else
        andThenNext (pushPsrAndPc s.ssp (psrWord s) s.pc { s1 with priv := .supervisor }) fun s2 =>
          .next { s2 with ssp := s.ssp - 4, pc := v }

/-- The return from an interrupt (R163), with its checks in the order of R182: privilege, stack pointer,
popped PC; the second word is read after the popped PC is checked, so a loaded odd word is reported
before a refused access. -/
def returnFromInterrupt (s : State) : Result :=
  match s.priv with
  | .user => raiseAtInstr .privilegeModeViolation s
  | .supervisor =>
    if isOdd s.ssp then raiseAtInstr (.illegalOperandAddress s.ssp) s
    else
      (readWord s.ssp s).andThen fun npc s1 =>
        if isOdd npc then raiseAtInstr (.illegalOperandAddress npc) s
        else
          (readWord (s.ssp + 2) s1).andThen fun temp s2 =>
            .next (loadPsr temp { s2 with pc := npc, ssp := s.ssp + 4 })

end Sys2Proof.Machine
end

