-- ==== Sys2Proof/Machine/Flags.lean ====
section
/-! DEFINITION. The condition codes (spec/10_state.md R30 to R33). -/

namespace Sys2Proof.Machine

/-- The value, as a two's complement integer, is negative (R31). -/
def isNegative (v : Word) : Bool := v.getLsbD 15

/-- The value is zero (R31). -/
def isZero (v : Word) : Bool := v == 0

/-- The value, as a two's complement integer, is positive (R31). -/
def isPositive (v : Word) : Bool := !isNegative v && !isZero v

/-- `setcc(v)` (R31). -/
def setcc (v : Word) (s : State) : State :=
  { s with n := isNegative v, z := isZero v, p := isPositive v }

/-- `x[DR] <- v; setcc(v)`: what every instruction that writes a DR does with its result (R32, R121). -/
def writeDr (dr : Reg) (v : Word) (s : State) : State := setcc v (s.setReg dr v)

/-- Whether a BR with the condition code bits n, z, p branches (R130). -/
def branchTaken (n z p : Bool) (s : State) : Bool := (n && s.n) || (z && s.z) || (p && s.p)

end Sys2Proof.Machine
end

