-- ==== Sys2Proof/Machine/Operands.lean ====
section
/-! DEFINITION. Operand forms: the extensions and shifts of spec/00_scope.md R12, R13, the operand values
of spec/30_encoding.md R90 to R96 and the addresses made from them. -/

namespace Sys2Proof.Machine

/-- `SEXT` to 16 bits (R12). -/
def sext16 {n : Nat} (x : BitVec n) : Word := x.signExtend 16

/-- `ZEXT` to 16 bits (R12). -/
def zext16 {n : Nat} (x : BitVec n) : Word := x.setWidth 16

/-- `LSHF(A, b)` (R13). -/
def lshf (a : Word) (b : Nat) : Word := a <<< b

/-- `RSHF(A, b, s)` (R13): the vacated positions, the upper `b`, are filled with `s`. -/
def rshf (a : Word) (b : Nat) (s : Bool) : Word :=
  (a >>> b) ||| (if s then BitVec.allOnes 16 <<< (16 - b) else 0)

/-- The operand value of imm5 (R90). -/
def imm5Value (f : BitVec 5) : Word := sext16 f

/-- The operand value of amount4 (R91). -/
def amount4Value (f : BitVec 4) : Nat := f.toNat

/-- The operand value of boffset6, in bytes (R92). -/
def boffset6Value (f : BitVec 6) : Word := sext16 f

/-- The operand value of offset6, a count of words (R93). -/
def offset6Value (f : BitVec 6) : Word := lshf (sext16 f) 1

/-- The operand value of PCoffset9, a count of words (R94). -/
def pcOffset9Value (f : BitVec 9) : Word := lshf (sext16 f) 1

/-- The operand value of PCoffset11, a count of words (R95). -/
def pcOffset11Value (f : BitVec 11) : Word := lshf (sext16 f) 1

/-- The address of the trap vector table entry of trapvect8 (R96). -/
def trapVectorAddress (f : BitVec 8) : Word := lshf (zext16 f) 1

/-- The address of LDB and STB (R145, R149). -/
def byteAddress (baseR : Reg) (boffset6 : BitVec 6) (s : State) : Word :=
  s.reg baseR + boffset6Value boffset6

/-- The address of LDW and STW (R147, R151). -/
def wordAddress (baseR : Reg) (offset6 : BitVec 6) (s : State) : Word :=
  s.reg baseR + offset6Value offset6

/-- The incremented PC plus PCoffset9: the target of BR, the value of LEA (R130, R153). -/
def pcRelative9 (pcOffset9 : BitVec 9) (s : State) : Word := s.pc + pcOffset9Value pcOffset9

/-- The incremented PC plus PCoffset11: the target of JSR (R136). -/
def pcRelative11 (pcOffset11 : BitVec 11) (s : State) : Word := s.pc + pcOffset11Value pcOffset11

end Sys2Proof.Machine
end

