-- ==== Sys2Proof/Machine/DataMovement.lean ====
section
/-! DEFINITION. The data movement instructions (spec/42_load_store.md R145 to R157). -/

namespace Sys2Proof.Machine

/-- LDB: the byte is sign-extended (R145). -/
def execLdb (dr baseR : Reg) (boffset6 : BitVec 6) (s : State) : Result :=
  (readByte (byteAddress baseR boffset6 s) s).andThen fun b s' => .next (writeDr dr (sext16 b) s')

/-- LDW: the check of the base register precedes the access (R147, R155). -/
def execLdw (dr baseR : Reg) (offset6 : BitVec 6) (s : State) : Result :=
  if isOdd (s.reg baseR) then raiseAtInstr (.illegalOperandAddress (s.reg baseR)) s
  else (readWord (wordAddress baseR offset6 s) s).andThen fun v s' => .next (writeDr dr v s')

/-- STB: SR[7:0] is stored (R149). -/
def execStb (sr baseR : Reg) (boffset6 : BitVec 6) (s : State) : Result :=
  writeByte (byteAddress baseR boffset6 s) (lowByte (s.reg sr)) s

/-- STW: the check of the base register precedes the access (R151, R155). -/
def execStw (sr baseR : Reg) (offset6 : BitVec 6) (s : State) : Result :=
  if isOdd (s.reg baseR) then raiseAtInstr (.illegalOperandAddress (s.reg baseR)) s
  else writeWord (wordAddress baseR offset6 s) (s.reg sr) s

/-- LEA: no memory access (R153). -/
def execLea (dr : Reg) (pcOffset9 : BitVec 9) (s : State) : Result :=
  .next (writeDr dr (pcRelative9 pcOffset9 s) s)

end Sys2Proof.Machine
end

