-- ==== Sys2Proof/Machine/Operate.lean ====
section
/-! DEFINITION. The operate instructions (spec/40_operate.md R110 to R121): the sources are read, the
result is computed, DR is written, the condition codes are set from it. -/

namespace Sys2Proof.Machine

/-- ADD, register form (R110). -/
def execAddReg (dr sr1 sr2 : Reg) (s : State) : Result :=
  .next (writeDr dr (s.reg sr1 + s.reg sr2) s)

/-- ADD, immediate form (R111). -/
def execAddImm (dr sr1 : Reg) (imm5 : BitVec 5) (s : State) : Result :=
  .next (writeDr dr (s.reg sr1 + imm5Value imm5) s)

/-- AND, register form (R112). -/
def execAndReg (dr sr1 sr2 : Reg) (s : State) : Result :=
  .next (writeDr dr (s.reg sr1 &&& s.reg sr2) s)

/-- AND, immediate form (R113). -/
def execAndImm (dr sr1 : Reg) (imm5 : BitVec 5) (s : State) : Result :=
  .next (writeDr dr (s.reg sr1 &&& imm5Value imm5) s)

/-- XOR, register form (R114). -/
def execXorReg (dr sr1 sr2 : Reg) (s : State) : Result :=
  .next (writeDr dr (s.reg sr1 ^^^ s.reg sr2) s)

/-- XOR, immediate form (R115). -/
def execXorImm (dr sr1 : Reg) (imm5 : BitVec 5) (s : State) : Result :=
  .next (writeDr dr (s.reg sr1 ^^^ imm5Value imm5) s)

/-- NOT (R116). -/
def execNot (dr sr : Reg) (s : State) : Result :=
  .next (writeDr dr (~~~(s.reg sr)) s)

/-- LSHF (R117). -/
def execLshf (dr sr : Reg) (amount4 : BitVec 4) (s : State) : Result :=
  .next (writeDr dr (lshf (s.reg sr) (amount4Value amount4)) s)

/-- The shift word with inst[5:4] = 10: it executes exactly as LSHF (R99, R117). -/
def execLshfAlt (dr sr : Reg) (amount4 : BitVec 4) (s : State) : Result :=
  .next (writeDr dr (lshf (s.reg sr) (amount4Value amount4)) s)

/-- RSHFL (R118). -/
def execRshfl (dr sr : Reg) (amount4 : BitVec 4) (s : State) : Result :=
  .next (writeDr dr (rshf (s.reg sr) (amount4Value amount4) false) s)

/-- RSHFA: the fill is the original SR[15] (R119). -/
def execRshfa (dr sr : Reg) (amount4 : BitVec 4) (s : State) : Result :=
  .next (writeDr dr (rshf (s.reg sr) (amount4Value amount4) ((s.reg sr).getLsbD 15)) s)

/-- A word with the reserved opcode 1010: the fault `ReservedOpcode` (R97, R178). -/
def execReserved1010 (low : BitVec 12) (s : State) : Result :=
  raiseAtInstr (.reservedOpcode (encode (.reserved1010 low))) s

/-- A word with the reserved opcode 1011: the fault `ReservedOpcode` (R97, R178). -/
def execReserved1011 (low : BitVec 12) (s : State) : Result :=
  raiseAtInstr (.reservedOpcode (encode (.reserved1011 low))) s

end Sys2Proof.Machine
end

