-- ==== Sys2Proof/Machine/Control.lean ====
section
/-! DEFINITION. The control instructions (spec/41_control.md R130 to R138). `s.pc` is the incremented
PC. -/

namespace Sys2Proof.Machine

/-- `pc <- t`, with the illegal operand address exception on an odd value (R134, R176). -/
def jumpTo (t : Word) (s : State) : Result :=
  if isOdd t then raiseAtInstr (.illegalOperandAddress t) s else .next { s with pc := t }

/-- `x[7] <- pc; pc <- t`, the link and the jump, with the check of the target before the write of R7
(R137, R160). -/
def linkAndJumpTo (t : Word) (s : State) : Result :=
  if isOdd t then raiseAtInstr (.illegalOperandAddress t) s
  else .next { s.setReg .r7 s.pc with pc := t }

/-- BR (R130). -/
def execBr (n z p : Bool) (pcOffset9 : BitVec 9) (s : State) : Result :=
  if branchTaken n z p s then .next { s with pc := pcRelative9 pcOffset9 s } else .next s

/-- JMP (R134). -/
def execJmp (baseR : Reg) (s : State) : Result := jumpTo (s.reg baseR) s

/-- RET: JMP with BaseR = R7 (R135). -/
def execRet (s : State) : Result := jumpTo (s.reg .r7) s

/-- JSR (R136). The target is even whenever the PC is; the spec makes no check. -/
def execJsr (pcOffset11 : BitVec 11) (s : State) : Result :=
  .next { s.setReg .r7 s.pc with pc := pcRelative11 pcOffset11 s }

/-- The target of JSRR: BaseR read after the write of R7, or before it (R137, `JsrrR7Order`). -/
def jsrrTarget (baseR : Reg) (s : State) : Word :=
  match Config.jsrrR7Order with
  | .linkFirst => (s.setReg .r7 s.pc).reg baseR
  | .baseFirst => s.reg baseR

/-- JSRR (R137). -/
def execJsrr (baseR : Reg) (s : State) : Result := linkAndJumpTo (jsrrTarget baseR s) s

end Sys2Proof.Machine
end

