-- ==== Sys2Proof/Machine/System.lean ====
section
/-! DEFINITION. The system instructions (spec/43_system.md R160 to R165). -/

namespace Sys2Proof.Machine

/-- TRAP: the vector table entry is read, and checked before R7 is written; the mode does not change
and nothing is pushed (R160, R161). -/
def execTrap (trapvect8 : BitVec 8) (s : State) : Result :=
  (readWord (trapVectorAddress trapvect8) s).andThen linkAndJumpTo

/-- RTI (R163, R164). -/
def execRti (s : State) : Result := returnFromInterrupt s

end Sys2Proof.Machine
end

