-- ==== Sys2Proof/Machine/Dispatch.lean ====
section
/-! DEFINITION. The meaning of each instruction: one arm for each constructor of `Instr`. `s` is the
state after the fetch, its `pc` the incremented PC (spec/10_state.md R27). -/

namespace Sys2Proof.Machine

def exec (i : Instr) (s : State) : Host.Outcome State Fault Refusal :=
  match i with
  | .addReg dr sr1 sr2 => Sys2Proof.Machine.execAddReg dr sr1 sr2 s
  | .addImm dr sr1 imm5 => Sys2Proof.Machine.execAddImm dr sr1 imm5 s
  | .andReg dr sr1 sr2 => Sys2Proof.Machine.execAndReg dr sr1 sr2 s
  | .andImm dr sr1 imm5 => Sys2Proof.Machine.execAndImm dr sr1 imm5 s
  | .br n z p pcOffset9 => Sys2Proof.Machine.execBr n z p pcOffset9 s
  | .jmp baseR => Sys2Proof.Machine.execJmp baseR s
  | .ret => Sys2Proof.Machine.execRet s
  | .jsr pcOffset11 => Sys2Proof.Machine.execJsr pcOffset11 s
  | .jsrr baseR => Sys2Proof.Machine.execJsrr baseR s
  | .ldb dr baseR boffset6 => Sys2Proof.Machine.execLdb dr baseR boffset6 s
  | .ldw dr baseR offset6 => Sys2Proof.Machine.execLdw dr baseR offset6 s
  | .lea dr pcOffset9 => Sys2Proof.Machine.execLea dr pcOffset9 s
  | .xorReg dr sr1 sr2 => Sys2Proof.Machine.execXorReg dr sr1 sr2 s
  | .xorImm dr sr1 imm5 => Sys2Proof.Machine.execXorImm dr sr1 imm5 s
  | .notReg dr sr => Sys2Proof.Machine.execNot dr sr s
  | .rti => Sys2Proof.Machine.execRti s
  | .lshf dr sr amount4 => Sys2Proof.Machine.execLshf dr sr amount4 s
  | .lshfAlt dr sr amount4 => Sys2Proof.Machine.execLshfAlt dr sr amount4 s
  | .rshfl dr sr amount4 => Sys2Proof.Machine.execRshfl dr sr amount4 s
  | .rshfa dr sr amount4 => Sys2Proof.Machine.execRshfa dr sr amount4 s
  | .stb sr baseR boffset6 => Sys2Proof.Machine.execStb sr baseR boffset6 s
  | .stw sr baseR offset6 => Sys2Proof.Machine.execStw sr baseR offset6 s
  | .trap trapvect8 => Sys2Proof.Machine.execTrap trapvect8 s
  | .reserved1010 low => Sys2Proof.Machine.execReserved1010 low s
  | .reserved1011 low => Sys2Proof.Machine.execReserved1011 low s

end Sys2Proof.Machine
end

