-- ==== Sys2Proof/Machine/Cycle.lean ====
section
/-! DEFINITION. One step of the machine: the instruction boundary with its device steps and the
interrupt, then the instruction cycle (spec/10_state.md R27, spec/60_exceptions.md R185, R200,
R201). -/

namespace Sys2Proof.Machine

/-- The state in which the operation of an instruction is performed: its `pc` is the incremented PC
(R27), modulo 2^16 (R29). -/
def incrementPc (s : State) : State := { s with pc := s.pc + 2 }

/-- Execute a decoded word; a reserved encoding raises at decode, before any operand is read (R98,
R178). -/
def execDecoded (d : Decoded) (s : State) : Result :=
  match d with
  | .instr i => exec i s
  | .reservedEncoding w => raiseAtInstr (.reservedEncoding w) s

/-- The instruction cycle: fetch, increment, execute (R27, R70). -/
def instructionCycle (s : State) : Result :=
  (fetchWord s.pc s).andThen fun w s' => execDecoded (decodeWord w) (incrementPc s')

/-- After the boundary's device steps, a running processor performs interrupt initiation instead of
fetching when the interrupt is taken (R185). -/
def boundaryThenCycle (s : State) : Result :=
  if interruptTaken s then initiateInterrupt s else instructionCycle s

/-- One step. The halted state is terminal: no instruction is fetched and no interrupt is taken (R200).
DESIGN CHOICE, log entry 7: the step of a halted machine is the state itself. -/
def machineStep (s : State) : Result :=
  if s.clockEnable then boundaryThenCycle (deviceBoundary s) else .next s

/-- The state with an instruction of `nbits` bits `w` stored at the PC, as the hardware stores it (R52);
the bits from `nbits` up are 0. Nothing else changes. Log entry 15. -/
def placeAtPc (s : State) (nbits w : Nat) : State :=
  storeWord s.pc.toNat (BitVec.ofNat 16 (w % 2 ^ nbits)) s

end Sys2Proof.Machine
end

