-- ==== Sys2Proof/Machine/Step.lean ====
section
/-! DEFINITION. The step of the machine and the placing of an instruction where it fetches; the meaning of
both is in Machine/Cycle.lean. -/

namespace Sys2Proof.Machine

/-- One step from one instruction boundary to the next. -/
def step (s : State) : Host.Outcome State Fault Refusal := machineStep s

/-- The state with an instruction stored where `step` fetches its next instruction, the PC. -/
def State.withFetchWord (s : State) (nbits w : Nat) : State := placeAtPc s nbits w

end Sys2Proof.Machine
end

