-- ==== Sys2Proof/Assembly.lean ====
section
/-! DEFINITION. The assembler forms of spec/30_encoding.md R103 to R108: how an instruction is written, the
five trap names, and the offset field of a label. No rule of the machine uses them. -/

namespace Sys2Proof

/-- Registers are written `R0` to `R7` (R103). -/
def Reg.name : Reg → String
  | .r0 => "R0" | .r1 => "R1" | .r2 => "R2" | .r3 => "R3"
  | .r4 => "R4" | .r5 => "R5" | .r6 => "R6" | .r7 => "R7"

/-- A decimal literal of a signed field (R103). -/
def decimalLiteral {n : Nat} (f : BitVec n) : String := "#" ++ toString f.toInt

/-- A decimal literal of an unsigned field (R91, R103). -/
def unsignedLiteral {n : Nat} (f : BitVec n) : String := "#" ++ toString f.toNat

/-- A hexadecimal literal (R103). -/
def hexLiteral {n : Nat} (f : BitVec n) : String :=
  "x" ++ String.ofList ((Nat.toDigits 16 f.toNat).map Char.toUpper)

/-- A mnemonic and its operands, separated by commas (R103). -/
def written (mnemonic : String) (operands : List String) : String :=
  mnemonic ++ " " ++ String.intercalate ", " operands

/-- The spelling of BR for the codes tested; none produces n z p = 000 (R105). -/
def brSpelling : Bool → Bool → Bool → Option String
  | false, false, false => none
  | true, false, false => some "BRn"
  | false, true, false => some "BRz"
  | false, false, true => some "BRp"
  | true, true, false => some "BRnz"
  | true, false, true => some "BRnp"
  | false, true, true => some "BRzp"
  | true, true, true => some "BRnzp"

/-- The names of the trap vectors of Table A.2: each may be written for its TRAP word, without operands
(R106). -/
def trapName (trapvect8 : BitVec 8) : Option String :=
  if trapvect8 = 0x20 then some "GETC"
  else if trapvect8 = 0x21 then some "OUT"
  else if trapvect8 = 0x22 then some "PUTS"
  else if trapvect8 = 0x23 then some "IN"
  else if trapvect8 = 0x25 then some "HALT"
  else none

/-- The address a label must have for an offset field in the instruction at `a` (R94, R95, R108). -/
def labelAddress {n : Nat} (a : Word) (f : BitVec n) : Word := a + 2 + (f.signExtend 16 <<< 1)

/-- The offset field of `n` bits for a label at `l` in the instruction at `a`; `none` where the distance is
odd or out of the field's range (R108). -/
def labelOffset (n : Nat) (l a : Word) : Option (BitVec n) :=
  let d : Int := l.toNat - (a.toNat + 2)
  if d % 2 = 0 ∧ -(2 ^ n : Int) ≤ d ∧ d < 2 ^ n then some (BitVec.ofInt n (d / 2)) else none

/-- The assembler form of the instruction at `a` (R104), a label written as the address it stands for;
`none` for a word that no mnemonic produces (R97, R99, R105). -/
def Instr.assembly (a : Word) (i : Instr) : Option String :=
  match i with
  | .addReg dr sr1 sr2 => some (written "ADD" [dr.name, sr1.name, sr2.name])
  | .addImm dr sr1 imm5 => some (written "ADD" [dr.name, sr1.name, decimalLiteral imm5])
  | .andReg dr sr1 sr2 => some (written "AND" [dr.name, sr1.name, sr2.name])
  | .andImm dr sr1 imm5 => some (written "AND" [dr.name, sr1.name, decimalLiteral imm5])
  | .br n z p pcOffset9 => (brSpelling n z p).map fun m => written m [hexLiteral (labelAddress a pcOffset9)]
  | .jmp baseR => some (written "JMP" [baseR.name])
  | .ret => some "RET"
  | .jsr pcOffset11 => some (written "JSR" [hexLiteral (labelAddress a pcOffset11)])
  | .jsrr baseR => some (written "JSRR" [baseR.name])
  | .ldb dr baseR boffset6 => some (written "LDB" [dr.name, baseR.name, decimalLiteral boffset6])
  | .ldw dr baseR offset6 => some (written "LDW" [dr.name, baseR.name, decimalLiteral offset6])
  | .lea dr pcOffset9 => some (written "LEA" [dr.name, hexLiteral (labelAddress a pcOffset9)])
  | .xorReg dr sr1 sr2 => some (written "XOR" [dr.name, sr1.name, sr2.name])
  | .xorImm dr sr1 imm5 => some (written "XOR" [dr.name, sr1.name, decimalLiteral imm5])
  | .notReg dr sr => some (written "NOT" [dr.name, sr.name])
  | .rti => some "RTI"
  | .lshf dr sr amount4 => some (written "LSHF" [dr.name, sr.name, unsignedLiteral amount4])
  | .lshfAlt _ _ _ => none
  | .rshfl dr sr amount4 => some (written "RSHFL" [dr.name, sr.name, unsignedLiteral amount4])
  | .rshfa dr sr amount4 => some (written "RSHFA" [dr.name, sr.name, unsignedLiteral amount4])
  | .stb sr baseR boffset6 => some (written "STB" [sr.name, baseR.name, decimalLiteral boffset6])
  | .stw sr baseR offset6 => some (written "STW" [sr.name, baseR.name, decimalLiteral offset6])
  | .trap trapvect8 => some (written "TRAP" [hexLiteral trapvect8])
  | .reserved1010 _ => none
  | .reserved1011 _ => none

end Sys2Proof
end

