-- ==== Sys2Proof/Safety.lean ====
section
/-! DEFINITION. The terms the claims use: what is kept, what is unchanged, what is halted. -/

namespace Sys2Proof.Machine

/-- MCR[15] = 0: no further instruction is fetched and no interrupt is taken (spec/60_exceptions.md
R200). -/
def State.halted (s : State) : Prop := s.clockEnable = false

/-- The R6 cell the privilege mode does not select (spec/10_state.md R23). -/
def State.hiddenSp (s : State) : Word :=
  match s.priv with
  | .supervisor => s.usp
  | .user => s.ssp

/-- The invariant of every run: memory in its canonical form, the PC even (R28). -/
def MachineInv (s : State) : Prop := Memory.wf s.mem = true ∧ isOdd s.pc = false

/-- The condition codes are those of a value, by its sign as a two's complement integer (R31). -/
def CodesAre (v : Word) (s : State) : Prop :=
  (s.n = true ↔ v.toInt < 0) ∧ (s.z = true ↔ v.toInt = 0) ∧ (s.p = true ↔ 0 < v.toInt)

/-- N, Z and P are unchanged. -/
def SameCodes (s t : State) : Prop := t.n = s.n ∧ t.z = s.z ∧ t.p = s.p

/-- Every byte of storage reads as before, but for those at the addresses listed. -/
def SameStorageExcept (as : List Nat) (s t : State) : Prop :=
  ∀ a, a ∉ as → Memory.read t.mem a = Memory.read s.mem a

/-- Every general register reads as before, but for those listed, and so does the R6 cell that is not
selected. -/
def SameRegsExcept (rs : List Reg) (s t : State) : Prop :=
  (∀ r, r ∉ rs → t.reg r = s.reg r) ∧ t.hiddenSp = s.hiddenSp

/-- The two device agents' inputs and the output: no character displayed, no device step used up. -/
def SameStreams (s t : State) : Prop := t.console = s.console ∧ t.schedule = s.schedule ∧
  t.boundaryCount = s.boundaryCount

/-- The keyboard's registers are unchanged. -/
def SameKeyboard (s t : State) : Prop :=
  t.kbReady = s.kbReady ∧ t.kbIE = s.kbIE ∧ t.kbdr = s.kbdr

/-- The display's registers are unchanged. -/
def SameDisplay (s t : State) : Prop := t.dsReady = s.dsReady ∧ t.ddr = s.ddr

/-- Every device register, both streams and the count of free reads are unchanged. -/
def SameDevices (s t : State) : Prop :=
  SameKeyboard s t ∧ SameDisplay s t ∧ SameStreams s t ∧ t.clockEnable = s.clockEnable ∧
    t.freeCount = s.freeCount

/-- The frame of an instruction that writes one DR and the condition codes from it (R32, R121): no
other register, not the PC, not the mode, no memory, no device. -/
def WritesOnlyDrAndCodes (dr : Reg) (s t : State) : Prop :=
  CodesAre (t.reg dr) t ∧ SameRegsExcept [dr] s t ∧ t.pc = s.pc ∧ t.priv = s.priv ∧
    SameStorageExcept [] s t ∧ SameDevices s t

/-- The frame of an instruction that writes the PC and the registers listed and nothing else. -/
def WritesOnlyPcAnd (rs : List Reg) (s t : State) : Prop :=
  SameRegsExcept rs s t ∧ SameCodes s t ∧ t.priv = s.priv ∧ SameStorageExcept [] s t ∧
    SameDevices s t

/-- The frame of an instruction that writes the bytes at the addresses listed and nothing else. -/
def WritesOnlyStorage (as : List Nat) (s t : State) : Prop :=
  SameRegsExcept [] s t ∧ SameCodes s t ∧ t.pc = s.pc ∧ t.priv = s.priv ∧
    SameStorageExcept as s t ∧ SameDevices s t

/-- Everything but the device registers, the console and the count of free reads is unchanged: the frame
of an instruction that writes a device register. -/
def WritesOnlyDevices (s t : State) : Prop :=
  SameRegsExcept [] s t ∧ SameCodes s t ∧ t.pc = s.pc ∧ t.priv = s.priv ∧
    SameStorageExcept [] s t ∧ t.schedule = s.schedule ∧ t.boundaryCount = s.boundaryCount

/-- The frame of a load from a device register: the DR, the codes and KBSR[15] may change, and the count
of free reads; no other register, not the PC, not the mode, no memory, no other device bit. -/
def LoadsFromDevice (dr : Reg) (s t : State) : Prop :=
  CodesAre (t.reg dr) t ∧ SameRegsExcept [dr] s t ∧ t.pc = s.pc ∧ t.priv = s.priv ∧
    SameStorageExcept [] s t ∧ SameDisplay s t ∧ SameStreams s t ∧ t.kbIE = s.kbIE ∧
    t.kbdr = s.kbdr ∧ t.clockEnable = s.clockEnable

/-- The DR of an instruction that writes one: ADD, AND, XOR, NOT, LSHF, RSHFL, RSHFA, LDB, LDW and LEA
(R32). -/
def destination : Instr → Option Reg
  | .addReg dr _ _ | .addImm dr _ _ | .andReg dr _ _ | .andImm dr _ _ | .xorReg dr _ _
  | .xorImm dr _ _ | .notReg dr _ | .lshf dr _ _ | .lshfAlt dr _ _ | .rshfl dr _ _
  | .rshfa dr _ _ | .ldb dr _ _ | .ldw dr _ _ | .lea dr _ => some dr
  | .br _ _ _ _ | .jmp _ | .ret | .jsr _ | .jsrr _ | .rti | .stb _ _ _ | .stw _ _ _
  | .trap _ | .reserved1010 _ | .reserved1011 _ => none

/-- Two states that agree on everything but N, Z and P. -/
def SameButCodes (t t' : State) : Prop := t' = { t with n := t'.n, z := t'.z, p := t'.p }

/-- The unsigned value of the word at an address of storage: the byte at `a` is its low byte (R57). -/
def wordAt (s : State) (a : Nat) : Nat :=
  (Memory.read s.mem a).toNat + 256 * (Memory.read s.mem (a + 1)).toNat

/-- An outcome with its next state changed. -/
def mapNext (f : State → State) (o : Result) : Result :=
  match o with
  | .next s => .next (f s)
  | .fault e => .fault e
  | .refused e => .refused e

/-- Two outcomes that differ at most in what `R` allows between their next states. -/
def OutcomesRelated (R : State → State → Prop) (o o' : Result) : Prop :=
  match o, o' with
  | .next s, .next s' => R s s'
  | .fault e, .fault e' => e = e'
  | .refused e, .refused e' => e = e'
  | _, _ => False

/-- A running machine that fetches at this boundary: after the boundary's device steps no interrupt is
taken (R185). -/
def Fetches (s : State) : Prop :=
  s.clockEnable = true ∧ interruptTaken (deviceBoundary s) = false

end Sys2Proof.Machine
end

