-- ==== Sys2Proof/Certificates/Slice0/Obligations.lean ====
section
/-! DEFINITION. The statements for the provers. `exec i s` is the operation of an instruction: the `pc` of `s`
is the incremented PC (spec/10_state.md R27), so the instruction's own address is `s.pc - 2`. -/

open Sys2Proof Sys2Proof.Machine

/-! ## Encoding -/

/-- 30_encoding.md R81, R82, R85: decoding the word of a well-formed instruction gives the instruction
back, from the word and from its two bytes in address order. That the words of NOT and RET are those of
`notReg` and `ret` is the model's choice, log entry 13. -/
def Obligations.DecodeOfEncodeIsTheInstruction : Prop :=
  ∀ i : Instr, i.wellFormed = true →
    decodeWord (encode i) = .instr i ∧
    ∀ rest, decodeBytes (lowByte (encode i) :: highByte (encode i) :: rest) = .word (.instr i) rest

/-- 30_encoding.md R85, R98: each word that decodes to an instruction is that instruction's word, so no two
words decode to one instruction and no bit of a decoded word is ignored. That no fixed bit is ignored is
`StrictReservedBits` = true, the spec's decision D3 (log entry 17); that the words of NOT and RET are those of
`notReg` and `ret` is the model's choice, log entry 13. -/
def Obligations.EncodeOfDecodeIsTheWord : Prop :=
  ∀ (w : Word) (i : Instr), decodeWord w = .instr i → i.wellFormed = true ∧ encode i = w

/-- 30_encoding.md R98 with `StrictReservedBits` = true: the reserved encodings are exactly the words whose
fixed bits are not zero. That they are reserved is the spec's decision D3 (log entry 17). -/
def Obligations.ReservedEncodingsAreTheFixedBitMismatches : Prop :=
  ∀ w : Word,
    (∀ v, decodeWord w = .reservedEncoding v → v = w) ∧
    (decodeWord w = .reservedEncoding w ↔
      let op := w.toNat / 4096
      ((op = 1 ∨ op = 5 ∨ op = 9) ∧ w.getLsbD 5 = false ∧ (w.getLsbD 4 = true ∨ w.getLsbD 3 = true)) ∨
      (op = 12 ∧ (w.toNat / 512 % 8 ≠ 0 ∨ w.toNat % 64 ≠ 0)) ∨
      (op = 4 ∧ w.getLsbD 11 = false ∧ (w.toNat / 512 % 4 ≠ 0 ∨ w.toNat % 64 ≠ 0)) ∨
      (op = 8 ∧ w.toNat % 4096 ≠ 0) ∨
      (op = 15 ∧ w.toNat / 256 % 16 ≠ 0))

/-- 30_encoding.md R98, the other value of `StrictReservedBits`: with the fixed bits ignored every word
decodes to an instruction, and to the same one where the strict decoder gives one. The parameter is the
spec's decision D3 (log entry 17). -/
def Obligations.LenientDecodingExtendsStrictDecoding : Prop :=
  ∀ w : Word, ∃ i, decodeWordWith false w = .instr i ∧
    (decodeWordWith true w = .instr i ∨ decodeWordWith true w = .reservedEncoding w)

/-- 95_test_vectors.md E11 to E33: the words the spec prints for its examples decode to the instruction it
prints beside them. That x98BF decodes to `notReg` and xC1C0 to `ret`, which are no separate decode results
of R85, is the model's choice, log entry 13. -/
def Obligations.PrintedExampleWordsDecode : Prop :=
  decodeWord 0x14C4 = .instr (.addReg .r2 .r3 .r4) ∧ decodeWord 0x14E7 = .instr (.addImm .r2 .r3 7) ∧
  decodeWord 0x54C4 = .instr (.andReg .r2 .r3 .r4) ∧ decodeWord 0x54E7 = .instr (.andImm .r2 .r3 7) ∧
  decodeWord 0x07FD = .instr (.br false true true (-3)) ∧ decodeWord 0xC080 = .instr (.jmp .r2) ∧
  decodeWord 0xC1C0 = .instr .ret ∧ decodeWord 0x4810 = .instr (.jsr 0x10) ∧
  decodeWord 0x40C0 = .instr (.jsrr .r3) ∧ decodeWord 0x288A = .instr (.ldb .r4 .r2 10) ∧
  decodeWord 0x688A = .instr (.ldw .r4 .r2 10) ∧ decodeWord 0xE820 = .instr (.lea .r4 0x20) ∧
  decodeWord 0x98BF = .instr (.notReg .r4 .r2) ∧ decodeWord 0x8000 = .instr .rti ∧
  decodeWord 0xD4C3 = .instr (.lshf .r2 .r3 3) ∧ decodeWord 0xD4D7 = .instr (.rshfl .r2 .r3 7) ∧
  decodeWord 0xD4F7 = .instr (.rshfa .r2 .r3 7) ∧ decodeWord 0x388A = .instr (.stb .r4 .r2 10) ∧
  decodeWord 0x788A = .instr (.stw .r4 .r2 10) ∧
  decodeWord 0xF023 = .instr (.trap 0x23) ∧ decodeWord 0x9642 = .instr (.xorReg .r3 .r1 .r2) ∧
  decodeWord 0x966C = .instr (.xorImm .r3 .r1 12)

/-- 30_encoding.md R100: NOT is the XOR immediate form with imm5 = 11111, RET is JMP with BaseR = 111,
the word xC1C0; neither has an effect of its own. -/
def Obligations.NotIsXorAndRetIsJmp : Prop :=
  (∀ dr sr, encode (.notReg dr sr) = encode (.xorImm dr sr 0b11111)) ∧
  encode .ret = encode (.jmp .r7) ∧ encode .ret = 0xC1C0 ∧
  (∀ dr sr s, exec (.notReg dr sr) s = exec (.xorImm dr sr 0b11111) s) ∧
  ∀ s, exec .ret s = exec (.jmp .r7) s

/-- 30_encoding.md R97: every word xA000 to xAFFF and xB000 to xBFFF decodes to a reserved opcode, whose
execution is the fault `ReservedOpcode` with the word, and nothing else. The fault is the spec's
decision D2 (log entry 17), that it is terminal and carries the instruction's address D1 (log entry 16). -/
def Obligations.ReservedOpcodesFault : Prop :=
  ∀ w : Word,
    (0xA000 ≤ w.toNat → w.toNat ≤ 0xAFFF → ∃ low, decodeWord w = .instr (.reserved1010 low) ∧
      ∀ s, exec (.reserved1010 low) s = .fault (.reservedOpcode w (s.pc - 2))) ∧
    (0xB000 ≤ w.toNat → w.toNat ≤ 0xBFFF → ∃ low, decodeWord w = .instr (.reserved1011 low) ∧
      ∀ s, exec (.reserved1011 low) s = .fault (.reservedOpcode w (s.pc - 2)))

/-! ## Operands -/

/-- 00_scope.md R12: SEXT and ZEXT of an n-bit field, with the examples. -/
def Obligations.SextAndZextFormulas : Prop :=
  (∀ (n : Nat) (x : BitVec n), 1 ≤ n → n ≤ 16 →
    (sext16 x).toNat = (if x.getLsbD (n - 1) then x.toNat + 2 ^ 16 - 2 ^ n else x.toNat) ∧
    (zext16 x).toNat = x.toNat) ∧
  sext16 0b110000#6 = 0b1111111111110000#16 ∧ zext16 0b110000#6 = 0b0000000000110000#16

/-- 00_scope.md R13: LSHF and RSHF by their formulas, for every amount 0 to 15, with the examples. -/
def Obligations.LshfAndRshfFormulas : Prop :=
  (∀ (a : Word) (b : Nat), b ≤ 15 → (lshf a b).toNat = a.toNat * 2 ^ b % 2 ^ 16) ∧
  (∀ (a : Word) (b : Nat) (s : Bool), b ≤ 15 →
    (rshf a b s).toNat = a.toNat / 2 ^ b + (if s then 2 ^ 16 - 2 ^ (16 - b) else 0)) ∧
  lshf 0xFFFF 5 = 0b1111111111100000#16 ∧ rshf 0xFFFF 7 false = 0b0000000111111111#16

/-- 30_encoding.md R90 to R96: the values of the operand fields as integers, with their ranges. -/
def Obligations.OperandFieldValues : Prop :=
  (∀ f, (imm5Value f).toInt = f.toInt ∧ -16 ≤ (imm5Value f).toInt ∧ (imm5Value f).toInt ≤ 15) ∧
  (∀ f, amount4Value f = f.toNat ∧ amount4Value f ≤ 15) ∧
  (∀ f, (boffset6Value f).toInt = f.toInt ∧ -32 ≤ (boffset6Value f).toInt ∧ (boffset6Value f).toInt ≤ 31) ∧
  (∀ f, (offset6Value f).toInt = 2 * f.toInt ∧ -64 ≤ (offset6Value f).toInt ∧ (offset6Value f).toInt ≤ 62) ∧
  (∀ f, (pcOffset9Value f).toInt = 2 * f.toInt ∧ -512 ≤ (pcOffset9Value f).toInt ∧
    (pcOffset9Value f).toInt ≤ 510) ∧
  (∀ f, (pcOffset11Value f).toInt = 2 * f.toInt ∧ -2048 ≤ (pcOffset11Value f).toInt ∧
    (pcOffset11Value f).toInt ≤ 2046) ∧
  ∀ f, (trapVectorAddress f).toNat = 2 * f.toNat ∧ (trapVectorAddress f).toNat ≤ 0x1FE

/-- 42_load_store.md R145 to R153, 20_memory.md R73: the effective addresses, modulo 2^16. The wrap is the
spec's decisions D5 and D6 (log entry 25). -/
def Obligations.EffectiveAddressesWrap : Prop :=
  ∀ s : State,
    (∀ b f, ((byteAddress b f s).toNat : Int) = ((s.reg b).toNat + f.toInt) % 65536) ∧
    (∀ b f, ((wordAddress b f s).toNat : Int) = ((s.reg b).toNat + 2 * f.toInt) % 65536 ∧
      isOdd (wordAddress b f s) = isOdd (s.reg b)) ∧
    (∀ f, ((pcRelative9 f s).toNat : Int) = (s.pc.toNat + 2 * f.toInt) % 65536 ∧
      isOdd (pcRelative9 f s) = isOdd s.pc) ∧
    ∀ f, ((pcRelative11 f s).toNat : Int) = (s.pc.toNat + 2 * f.toInt) % 65536 ∧
      isOdd (pcRelative11 f s) = isOdd s.pc

/-! ## Registers, condition codes, mode -/

/-- 10_state.md R31: setcc sets N, Z and P from the sign of a 16-bit value, and the value is the one an
instruction with a DR wrote to it. -/
def Obligations.SetccFollowsTheSign : Prop :=
  (∀ (v : Word) (s : State),
    let t := setcc v s
    SameButCodes s t ∧
    (if v.getLsbD 15 then t.n = true ∧ t.z = false ∧ t.p = false
     else if v = 0 then t.n = false ∧ t.z = true ∧ t.p = false
     else t.n = false ∧ t.z = false ∧ t.p = true)) ∧
  (∀ s, (setcc 0x8000 s).n = true ∧ (setcc 0x7FFF s).p = true) ∧
  ∀ (i : Instr) (dr : Reg) (s t : State), destination i = some dr → exec i s = .next t →
    t = setcc (t.reg dr) t

/-- 10_state.md R32: an instruction that writes no DR and is not RTI leaves N, Z and P unchanged. -/
def Obligations.OtherInstructionsKeepTheCodes : Prop :=
  ∀ (i : Instr) (s t : State), destination i = none → i ≠ .rti → exec i s = .next t → SameCodes s t

/-- 10_state.md R32: BR alone reads N, Z and P. Run from two states that differ in them alone, any other
instruction ends the same way, in states that differ in them at most, and not at all after one that
writes them. -/
def Obligations.OnlyBrReadsTheCodes : Prop :=
  ∀ (i : Instr) (s : State) (n z p : Bool), (∀ n' z' p' f, i ≠ .br n' z' p' f) →
    OutcomesRelated
      (fun t t' => SameButCodes t t' ∧ (((destination i).isSome = true ∨ i = .rti) → t' = t))
      (exec i s) (exec i { s with n := n, z := z, p := p })

/-- 10_state.md R21, R23: a register reads what was written to it; R6 is the SSP in supervisor mode and
the USP in user mode, and a write of it is a write of that cell alone. -/
def Obligations.RegisterSixIsBanked : Prop :=
  (∀ (s : State) (v : Word), s.priv = .supervisor →
    s.reg .r6 = s.ssp ∧ s.setReg .r6 v = { s with ssp := v }) ∧
  (∀ (s : State) (v : Word), s.priv = .user →
    s.reg .r6 = s.usp ∧ s.setReg .r6 v = { s with usp := v }) ∧
  ∀ (s : State) (r : Reg) (v : Word), (s.setReg r v).reg r = v ∧ (s.setReg r v).priv = s.priv ∧
    SameRegsExcept [r] s (s.setReg r v)

/-- 10_state.md R23: the R6 cell that is not selected can be neither read nor written by any instruction:
another value in it changes nothing of the outcome but itself. -/
def Obligations.HiddenStackPointerIsUnreachable : Prop :=
  ∀ (i : Instr) (s : State) (x : Word),
    (s.priv = .user →
      exec i { s with ssp := x } = mapNext (fun t => { t with ssp := x }) (exec i s)) ∧
    (s.priv = .supervisor →
      exec i { s with usp := x } = mapNext (fun t => { t with usp := x }) (exec i s))

/-- 10_state.md R35: PSR[15] is 0 in supervisor mode and 1 in user mode; it changes only by interrupt
initiation, to 0, and by RTI, to bit 15 of the popped word; no other instruction, TRAP among them,
changes it. -/
def Obligations.ModeChangesOnlyByInterruptAndRti : Prop :=
  Mode.bit .supervisor = false ∧ Mode.bit .user = true ∧
  (∀ s t, initiateInterrupt s = .next t → t.priv = .supervisor) ∧
  (∀ s t, exec .rti s = .next t → ∃ npc s1 temp s2, readWord s.ssp s = .value npc s1 ∧
    readWord (s.ssp + 2) s1 = .value temp s2 ∧ t.priv.bit = temp.getLsbD 15) ∧
  (∀ i s t, i ≠ .rti → exec i s = .next t → t.priv = s.priv) ∧
  ∀ s t, step s = .next t → t.priv ≠ s.priv →
    (s.priv = .user ∧ initiateInterrupt (deviceBoundary s) = .next t) ∨
    (s.priv = .supervisor ∧ exec .rti (incrementPc (deviceBoundary s)) = .next t)

/-- 10_state.md R34, R36: the layout of the PSR as it is pushed and popped; bits [14:3] are pushed as 0 and
ignored by the pop. Bits 14:3 are the spec's decision D7 (log entry 20). -/
def Obligations.PsrLayout : Prop :=
  (∀ s : State, (psrWord s).getLsbD 15 = s.priv.bit ∧ (psrWord s).getLsbD 2 = s.n ∧
    (psrWord s).getLsbD 1 = s.z ∧ (psrWord s).getLsbD 0 = s.p ∧
    ∀ k, 3 ≤ k → k ≤ 14 → (psrWord s).getLsbD k = false) ∧
  (∀ s t : State, loadPsr (psrWord s) t = { t with priv := s.priv, n := s.n, z := s.z, p := s.p }) ∧
  ∀ (v w : Word) (t : State), (∀ k, k < 3 ∨ k = 15 → v.getLsbD k = w.getLsbD k) →
    loadPsr v t = loadPsr w t

/-! ## Operate instructions -/

/-- 40_operate.md R110, R111: ADD, both forms, completes with the sum modulo 2^16 in DR, the codes of it,
and nothing else changed. -/
def Obligations.AddWritesTheSum : Prop :=
  ∀ (s : State) (dr sr1 : Reg),
    (∀ sr2, ∃ t, exec (.addReg dr sr1 sr2) s = .next t ∧
      (t.reg dr).toNat = ((s.reg sr1).toNat + (s.reg sr2).toNat) % 65536 ∧ WritesOnlyDrAndCodes dr s t) ∧
    ∀ imm5 : BitVec 5, ∃ t, exec (.addImm dr sr1 imm5) s = .next t ∧
      ((t.reg dr).toNat : Int) = ((s.reg sr1).toNat + imm5.toInt) % 65536 ∧ WritesOnlyDrAndCodes dr s t

/-- 40_operate.md R112, R113: AND, both forms, bit by bit; imm5 is sign-extended. -/
def Obligations.AndWritesTheConjunction : Prop :=
  ∀ (s : State) (dr sr1 : Reg),
    (∀ sr2, ∃ t, exec (.andReg dr sr1 sr2) s = .next t ∧
      (∀ k, k < 16 → (t.reg dr).getLsbD k = ((s.reg sr1).getLsbD k && (s.reg sr2).getLsbD k)) ∧
      WritesOnlyDrAndCodes dr s t) ∧
    ∀ imm5 : BitVec 5, ∃ t, exec (.andImm dr sr1 imm5) s = .next t ∧
      (∀ k, k < 16 → (t.reg dr).getLsbD k = ((s.reg sr1).getLsbD k && imm5.getLsbD (min k 4))) ∧
      WritesOnlyDrAndCodes dr s t

/-- 40_operate.md R114 to R116: XOR, both forms, and NOT, bit by bit; imm5 is sign-extended. -/
def Obligations.XorAndNotComplementBits : Prop :=
  ∀ (s : State) (dr sr1 : Reg),
    (∀ sr2, ∃ t, exec (.xorReg dr sr1 sr2) s = .next t ∧
      (∀ k, k < 16 → (t.reg dr).getLsbD k = ((s.reg sr1).getLsbD k ^^ (s.reg sr2).getLsbD k)) ∧
      WritesOnlyDrAndCodes dr s t) ∧
    (∀ imm5 : BitVec 5, ∃ t, exec (.xorImm dr sr1 imm5) s = .next t ∧
      (∀ k, k < 16 → (t.reg dr).getLsbD k = ((s.reg sr1).getLsbD k ^^ imm5.getLsbD (min k 4))) ∧
      WritesOnlyDrAndCodes dr s t) ∧
    ∃ t, exec (.notReg dr sr1) s = .next t ∧
      (∀ k, k < 16 → (t.reg dr).getLsbD k = !(s.reg sr1).getLsbD k) ∧ WritesOnlyDrAndCodes dr s t

/-- 40_operate.md R117, 30_encoding.md R99: LSHF, and the unlisted shift word alike, multiply by a power of
two modulo 2^16. The unlisted word is the spec's decision D4. -/
def Obligations.LeftShiftsMultiply : Prop :=
  ∀ (s : State) (dr sr : Reg) (k : BitVec 4),
    (∃ t, exec (.lshf dr sr k) s = .next t ∧
      (t.reg dr).toNat = (s.reg sr).toNat * 2 ^ k.toNat % 65536 ∧ WritesOnlyDrAndCodes dr s t) ∧
    ∃ t, exec (.lshfAlt dr sr k) s = .next t ∧
      (t.reg dr).toNat = (s.reg sr).toNat * 2 ^ k.toNat % 65536 ∧ WritesOnlyDrAndCodes dr s t

/-- 40_operate.md R118: RSHFL divides the unsigned value by a power of two. -/
def Obligations.LogicalRightShiftDivides : Prop :=
  ∀ (s : State) (dr sr : Reg) (k : BitVec 4),
    ∃ t, exec (.rshfl dr sr k) s = .next t ∧
      (t.reg dr).toNat = (s.reg sr).toNat / 2 ^ k.toNat ∧ WritesOnlyDrAndCodes dr s t

/-- 40_operate.md R119: RSHFA divides the two's complement value by a power of two, rounding toward
minus infinity. -/
def Obligations.ArithmeticRightShiftFloors : Prop :=
  ∀ (s : State) (dr sr : Reg) (k : BitVec 4),
    ∃ t, exec (.rshfa dr sr k) s = .next t ∧
      (t.reg dr).toInt = Int.fdiv (s.reg sr).toInt (2 ^ k.toNat) ∧ WritesOnlyDrAndCodes dr s t

/-- 42_load_store.md R153: LEA writes the address, from the incremented PC, and reads no memory. The wrap is
the spec's decision D6 (log entry 25). -/
def Obligations.LeaWritesTheAddress : Prop :=
  ∀ (s : State) (dr : Reg) (f : BitVec 9),
    ∃ t, exec (.lea dr f) s = .next t ∧
      ((t.reg dr).toNat : Int) = (s.pc.toNat + 2 * f.toInt) % 65536 ∧ WritesOnlyDrAndCodes dr s t

/-! ## Control instructions -/

/-- 41_control.md R130: BR goes to the incremented PC plus twice PCoffset9 if a tested code is 1, else the
PC stays; nothing else changes. The wrap is the spec's decision D5 (log entry 25). -/
def Obligations.BrBranchesOnATestedCode : Prop :=
  ∀ (s : State) (n z p : Bool) (f : BitVec 9),
    ∃ t, exec (.br n z p f) s = .next t ∧ WritesOnlyPcAnd [] s t ∧
      ((n = true ∧ s.n = true) ∨ (z = true ∧ s.z = true) ∨ (p = true ∧ s.p = true) →
        (t.pc.toNat : Int) = (s.pc.toNat + 2 * f.toInt) % 65536) ∧
      (¬ ((n = true ∧ s.n = true) ∨ (z = true ∧ s.z = true) ∨ (p = true ∧ s.p = true)) → t.pc = s.pc)

/-- 41_control.md R131: the decision table of BR, the eight patterns of n z p against the three normal
states of the codes: whether the branch is taken. -/
def Obligations.BrDecisionTable : Prop :=
  ∀ s : State,
    (s.n = true → s.z = false → s.p = false → ∀ z p,
      branchTaken false z p s = false ∧ branchTaken true z p s = true) ∧
    (s.n = false → s.z = true → s.p = false → ∀ n p,
      branchTaken n false p s = false ∧ branchTaken n true p s = true) ∧
    (s.n = false → s.z = false → s.p = true → ∀ n z,
      branchTaken n z false s = false ∧ branchTaken n z true s = true) ∧
    ∀ n z p f, exec (.br n z p f) s =
      .next (if branchTaken n z p s then { s with pc := pcRelative9 f s } else s)

/-- 30_encoding.md R101: a word x0000 to x01FF at the PC is a no-operation: the step changes nothing but
the PC's normal increment, after the boundary's device steps. -/
def Obligations.BrTestingNothingIsANoOperation : Prop :=
  ∀ s : State, Fetches s → isOdd s.pc = false → s.pc.toNat < 0xFE00 → wordAt s s.pc.toNat < 0x200 →
    step s = .next { deviceBoundary s with pc := s.pc + 2 }

/-- 41_control.md R134, R135: JMP and RET go to an even base register value, changing nothing else; on an
odd one they raise the illegal operand address exception with it. That a raise stops the machine is the
spec's decision D1 (log entry 16). -/
def Obligations.JmpAndRetGoToAnEvenAddress : Prop :=
  ∀ (s : State) (b : Reg),
    (isOdd (s.reg b) = false →
      ∃ t, exec (.jmp b) s = .next t ∧ t.pc = s.reg b ∧ WritesOnlyPcAnd [] s t) ∧
    (isOdd (s.reg b) = true →
      exec (.jmp b) s = .fault (.illegalOperandAddress (s.reg b) (s.pc - 2))) ∧
    (isOdd (s.reg .r7) = false →
      ∃ t, exec .ret s = .next t ∧ t.pc = s.reg .r7 ∧ WritesOnlyPcAnd [] s t) ∧
    (isOdd (s.reg .r7) = true →
      exec .ret s = .fault (.illegalOperandAddress (s.reg .r7) (s.pc - 2)))

/-- 41_control.md R136: JSR writes the incremented PC into R7 and goes to the incremented PC plus twice
PCoffset11, changing nothing else, not the codes, not the stack. The wrap is the spec's decision D5 (log
entry 25). -/
def Obligations.JsrLinksAndBranches : Prop :=
  ∀ (s : State) (f : BitVec 11),
    ∃ t, exec (.jsr f) s = .next t ∧ t.reg .r7 = s.pc ∧
      (t.pc.toNat : Int) = (s.pc.toNat + 2 * f.toInt) % 65536 ∧ WritesOnlyPcAnd [.r7] s t

/-- 41_control.md R137 with `JsrrR7Order` = `link-first`: JSRR writes the incremented PC into R7 and goes to
BaseR; JSRR R7 goes to the incremented PC; an odd target raises and R7 is not written. JSRR R7 is the
spec's decision D19 (log entry 19); that a raise is a terminal fault carrying the instruction's address, made
before the link, is D1 (60_exceptions.md R180, log entry 16). -/
def Obligations.JsrrLinksAndJumps : Prop :=
  ∀ s : State,
    (∀ b, b ≠ .r7 → isOdd (s.reg b) = false →
      ∃ t, exec (.jsrr b) s = .next t ∧ t.reg .r7 = s.pc ∧ t.pc = s.reg b ∧ WritesOnlyPcAnd [.r7] s t) ∧
    (∀ b, b ≠ .r7 → isOdd (s.reg b) = true →
      exec (.jsrr b) s = .fault (.illegalOperandAddress (s.reg b) (s.pc - 2))) ∧
    (isOdd s.pc = false →
      ∃ t, exec (.jsrr .r7) s = .next t ∧ t.reg .r7 = s.pc ∧ t.pc = s.pc ∧ WritesOnlyPcAnd [.r7] s t)

/-! ## Loads and stores -/

/-- 42_load_store.md R145: LDB loads the sign-extended byte from storage; in the device region it is
refused. The refusal is the spec's decision D14 (log entry 24). -/
def Obligations.LdbLoadsASignedByte : Prop :=
  ∀ (s : State) (dr b : Reg) (f : BitVec 6),
    let a := byteAddress b f s
    (a.toNat < 0xFE00 →
      ∃ t, exec (.ldb dr b f) s = .next t ∧ (t.reg dr).toInt = (Memory.read s.mem a.toNat).toInt ∧
        WritesOnlyDrAndCodes dr s t) ∧
    (0xFE00 ≤ a.toNat → exec (.ldb dr b f) s = .refused (.deviceByteAccess a))

/-- 42_load_store.md R147: LDW loads the word from storage, little endian; an odd base register raises; an
address of the device region with no register is refused. A raise that is a terminal fault carrying the
instruction's address is the spec's decision D1 (60_exceptions.md R180, log entry 16), the refusal its
decision D22 (log entry 24), the check of the base before that of the address D24 (log entry 22). -/
def Obligations.LdwLoadsAWord : Prop :=
  ∀ (s : State) (dr b : Reg) (f : BitVec 6),
    let a := wordAddress b f s
    (isOdd (s.reg b) = false → a.toNat < 0xFE00 →
      ∃ t, exec (.ldw dr b f) s = .next t ∧ (t.reg dr).toNat = wordAt s a.toNat ∧
        WritesOnlyDrAndCodes dr s t) ∧
    (isOdd (s.reg b) = true →
      exec (.ldw dr b f) s = .fault (.illegalOperandAddress (s.reg b) (s.pc - 2))) ∧
    (isOdd (s.reg b) = false → 0xFE08 ≤ a.toNat → a.toNat ≤ 0xFFFC →
      exec (.ldw dr b f) s = .refused (.unassignedDeviceAddress a))

/-- 60_exceptions.md R196 to R200: LDW at the five device register addresses. The KBSR gives ready and IE,
the DSR ready and the MCR the clock enable bit, the other bits being unspecified; the KBDR gives the
last character and clears KBSR[15]; of the DDR's value nothing is said. The side effect and the high
byte of the KBDR are the spec's decisions D11 and D20 (log entry 21), the free bits log entry 8. -/
def Obligations.LdwReadsTheDeviceRegisters : Prop :=
  ∀ (s : State) (dr b : Reg) (f : BitVec 6),
    let a := wordAddress b f s
    (a = 0xFE00 → ∃ t, exec (.ldw dr b f) s = .next t ∧ LoadsFromDevice dr s t ∧
      t.kbReady = s.kbReady ∧ (t.reg dr).getLsbD 15 = s.kbReady ∧ (t.reg dr).getLsbD 14 = s.kbIE) ∧
    (a = 0xFE02 → ∃ t, exec (.ldw dr b f) s = .next t ∧ LoadsFromDevice dr s t ∧
      t.kbReady = false ∧ (t.reg dr).toNat = s.kbdr.toNat) ∧
    (a = 0xFE04 → ∃ t, exec (.ldw dr b f) s = .next t ∧ LoadsFromDevice dr s t ∧
      t.kbReady = s.kbReady ∧ (t.reg dr).getLsbD 15 = s.dsReady) ∧
    (a = 0xFE06 → ∃ t, exec (.ldw dr b f) s = .next t ∧ LoadsFromDevice dr s t ∧
      t.kbReady = s.kbReady) ∧
    (a = 0xFFFE → ∃ t, exec (.ldw dr b f) s = .next t ∧ LoadsFromDevice dr s t ∧
      t.kbReady = s.kbReady ∧ (t.reg dr).getLsbD 15 = s.clockEnable)

/-- 42_load_store.md R149: STB stores the low byte of SR at the byte address and changes nothing else; in
the device region it is refused. The refusal is the spec's decision D14 (log entry 24). -/
def Obligations.StbStoresTheLowByte : Prop :=
  ∀ (s : State) (sr b : Reg) (f : BitVec 6),
    let a := byteAddress b f s
    (a.toNat < 0xFE00 →
      ∃ t, exec (.stb sr b f) s = .next t ∧
        (Memory.read t.mem a.toNat).toNat = (s.reg sr).toNat % 256 ∧ WritesOnlyStorage [a.toNat] s t) ∧
    (0xFE00 ≤ a.toNat → exec (.stb sr b f) s = .refused (.deviceByteAccess a))

/-- 42_load_store.md R151: STW stores SR at the word address, low byte first, and changes nothing else; an
odd base register raises; an address of the device region with no register is refused. A raise that is a
terminal fault carrying the instruction's address is the spec's decision D1 (60_exceptions.md R180, log
entry 16), the refusal its decision D22 (log entry 24), the check of the base before that of the address D24
(log entry 22). -/
def Obligations.StwStoresAWord : Prop :=
  ∀ (s : State) (sr b : Reg) (f : BitVec 6),
    let a := wordAddress b f s
    (isOdd (s.reg b) = false → a.toNat < 0xFE00 →
      ∃ t, exec (.stw sr b f) s = .next t ∧
        (Memory.read t.mem a.toNat).toNat = (s.reg sr).toNat % 256 ∧
        (Memory.read t.mem (a.toNat + 1)).toNat = (s.reg sr).toNat / 256 ∧
        WritesOnlyStorage [a.toNat, a.toNat + 1] s t) ∧
    (isOdd (s.reg b) = true →
      exec (.stw sr b f) s = .fault (.illegalOperandAddress (s.reg b) (s.pc - 2))) ∧
    (isOdd (s.reg b) = false → 0xFE08 ≤ a.toNat → a.toNat ≤ 0xFFFC →
      exec (.stw sr b f) s = .refused (.unassignedDeviceAddress a))

/-- 60_exceptions.md R196 to R200: STW at the five device register addresses. The KBSR takes IE alone; the
KBDR and the DSR ignore the write; the DDR, while the display is ready, displays the low byte and clears
DSR[15]; the MCR stops the clock on a word with bit 15 clear and ignores another. While the display is
not ready the character is dropped: the model's choice, log entry 10, one of the two R199 allows. The
device behaviour is the spec's decisions D11, D18 and D20 (log entries 21, 26). -/
def Obligations.StwWritesTheDeviceRegisters : Prop :=
  ∀ (s : State) (sr b : Reg) (f : BitVec 6),
    let a := wordAddress b f s
    let v := s.reg sr
    (a = 0xFE00 → ∃ t, exec (.stw sr b f) s = .next t ∧ WritesOnlyDevices s t ∧
      t.kbIE = v.getLsbD 14 ∧ SameDevices { s with kbIE := t.kbIE } t) ∧
    (a = 0xFE02 ∨ a = 0xFE04 → ∃ t, exec (.stw sr b f) s = .next t ∧ WritesOnlyDevices s t ∧
      SameDevices s t) ∧
    (a = 0xFE06 → ∃ t, exec (.stw sr b f) s = .next t ∧ WritesOnlyDevices s t ∧
      (s.dsReady = true → t.console = s.console ++ [v.extractLsb' 0 8] ∧ t.ddr = v.extractLsb' 0 8 ∧
        SameDevices { s with console := t.console, ddr := t.ddr, dsReady := false } t) ∧
      (s.dsReady = false → SameDevices s t)) ∧
    (a = 0xFFFE → ∃ t, exec (.stw sr b f) s = .next t ∧ WritesOnlyDevices s t ∧
      (v.getLsbD 15 = false → t.halted ∧ SameDevices { s with clockEnable := false } t) ∧
      (v.getLsbD 15 = true → SameDevices s t))

/-! ## System instructions -/

/-- 43_system.md R160, R161: TRAP writes the incremented PC into R7 and goes to the word of the trap vector
table, in the mode it was in, pushing nothing; an odd word raises before R7 is written. The raise is the
spec's decision D15 (log entry 22), that it is a terminal fault carrying the instruction's address its decision
D1 (60_exceptions.md R180, log entry 16). -/
def Obligations.TrapEntersTheServiceRoutine : Prop :=
  ∀ (s : State) (v : BitVec 8),
    (wordAt s (2 * v.toNat) % 2 = 0 →
      ∃ t, exec (.trap v) s = .next t ∧ t.reg .r7 = s.pc ∧ t.pc.toNat = wordAt s (2 * v.toNat) ∧
        WritesOnlyPcAnd [.r7] s t) ∧
    (wordAt s (2 * v.toNat) % 2 = 1 → ∃ w : Word, w.toNat = wordAt s (2 * v.toNat) ∧
      exec (.trap v) s = .fault (.illegalOperandAddress w (s.pc - 2)))

/-- 43_system.md R163: in supervisor mode RTI pops the PC and then the PSR from a supervisor stack in
storage; the SSP ends 4 higher, the USP and everything else are unchanged. The bits taken are the spec's
decision D7 (log entry 20). -/
def Obligations.RtiPopsPcThenPsr : Prop :=
  ∀ s : State, s.priv = .supervisor → isOdd s.ssp = false → s.ssp.toNat < 0xFDFE →
    wordAt s s.ssp.toNat % 2 = 0 →
    ∃ t psr, exec .rti s = .next t ∧ t.pc.toNat = wordAt s s.ssp.toNat ∧ t.ssp = s.ssp + 4 ∧
      psr = BitVec.ofNat 16 (wordAt s (s.ssp.toNat + 2)) ∧
      t.priv.bit = psr.getLsbD 15 ∧ t.n = psr.getLsbD 2 ∧ t.z = psr.getLsbD 1 ∧ t.p = psr.getLsbD 0 ∧
      t.usp = s.usp ∧ (∀ r, r ≠ .r6 → t.reg r = s.reg r) ∧ SameStorageExcept [] s t ∧ SameDevices s t

/-- 43_system.md R163, R164: RTI from any supervisor stack, device registers among its words: each word is
read by the rule of its address, and a refused read is a refused RTI. The order of the checks is the
spec's decision D24 (log entry 22), the bits taken its decision D7 (log entry 20), the wrap of SSP + 2 and
SSP + 4 at SSP = xFFFE its decision D6 (log entry 25). -/
def Obligations.RtiReadsAnyStack : Prop :=
  ∀ s : State, s.priv = .supervisor → isOdd s.ssp = false →
    (∀ r, readWord s.ssp s = .refused r → exec .rti s = .refused r) ∧
    ∀ npc s1, readWord s.ssp s = .value npc s1 → isOdd npc = false →
      (∀ r, readWord (s.ssp + 2) s1 = .refused r → exec .rti s = .refused r) ∧
      ∀ temp s2, readWord (s.ssp + 2) s1 = .value temp s2 →
        ∃ t, exec .rti s = .next t ∧ t.pc = npc ∧ t.ssp = s.ssp + 4 ∧ t.usp = s.usp ∧
          t.priv.bit = temp.getLsbD 15 ∧ t.n = temp.getLsbD 2 ∧ t.z = temp.getLsbD 1 ∧
          t.p = temp.getLsbD 0 ∧ (∀ r, r ≠ .r6 → t.reg r = s.reg r) ∧ SameStorageExcept [] s t ∧
          SameDevices s2 t

/-- 60_exceptions.md R177, R180, R182: the privilege mode violation is raised by RTI in user mode, whatever
the stack pointer, and by nothing else. A raise that is a fault carrying the instruction's address is the
spec's decision D1 (log entry 16); the privilege check before that of the stack pointer is its decision D24
(log entry 22). -/
def Obligations.PrivilegeViolationIsRtiInUserMode : Prop :=
  ∀ (i : Instr) (s : State) (a : Word),
    exec i s = .fault (.privilegeModeViolation a) ↔ i = .rti ∧ s.priv = .user ∧ a = s.pc - 2

/-- 60_exceptions.md R176, R181: what raises the illegal operand address exception, and the odd value it
records: the base register of JMP, RET, JSRR, LDW and STW, the loaded word of TRAP and RTI, the SSP at
RTI. TRAP and RTI are the spec's decision D15, an RTI only in supervisor mode D24 (log entry 22), the value s.pc for JSRR R7 its decision D19 (log
entry 19), a raise that is a terminal fault carrying the instruction's address its decision D1 (R180, log
entry 16). -/
def Obligations.CausesOfIllegalOperandAddress : Prop :=
  ∀ (i : Instr) (s : State) (v a : Word), exec i s = .fault (.illegalOperandAddress v a) →
    isOdd v = true ∧ a = s.pc - 2 ∧
    ((∃ b, i = .jmp b ∧ v = s.reg b) ∨ (i = .ret ∧ v = s.reg .r7) ∨
     (∃ b, i = .jsrr b ∧ v = if b = .r7 then s.pc else s.reg b) ∨
     (∃ dr b f, i = .ldw dr b f ∧ v = s.reg b) ∨ (∃ sr b f, i = .stw sr b f ∧ v = s.reg b) ∨
     (∃ k : BitVec 8, i = .trap k ∧ v.toNat = wordAt s (2 * k.toNat)) ∨
     (i = .rti ∧ s.priv = .supervisor ∧ (v = s.ssp ∨ ∃ s1, readWord s.ssp s = .value v s1)))

/-- 43_system.md R163: RTI in supervisor mode raises on an odd SSP, and on an odd popped PC. The raise is
the spec's decision D15 (log entry 22), that it is a terminal fault carrying the instruction's address its
decision D1 (60_exceptions.md R180, log entry 16), the check of the popped PC before the second read D24 (log
entry 22). -/
def Obligations.RtiRaisesOnOddWords : Prop :=
  ∀ s : State, s.priv = .supervisor →
    (isOdd s.ssp = true → exec .rti s = .fault (.illegalOperandAddress s.ssp (s.pc - 2))) ∧
    (isOdd s.ssp = false → ∀ npc s1, readWord s.ssp s = .value npc s1 → isOdd npc = true →
      exec .rti s = .fault (.illegalOperandAddress npc (s.pc - 2)))

/-! ## Memory -/

/-- 20_memory.md R56, R58: byte accesses: storage keeps the byte written and no other location changes; the
device region is refused (R60). The refusal is the spec's decision D14 (log entry 24). -/
def Obligations.ByteAccesses : Prop :=
  ∀ (s : State) (a : Word) (v : Byte),
    (a.toNat < 0xFE00 → readByte a s = .value (Memory.read s.mem a.toNat) s ∧
      ∃ t, writeByte a v s = .next t ∧ readByte a t = .value v t ∧ t = { s with mem := t.mem } ∧
        SameStorageExcept [a.toNat] s t) ∧
    (0xFE00 ≤ a.toNat → readByte a s = .refused (.deviceByteAccess a) ∧
      writeByte a v s = .refused (.deviceByteAccess a))

/-- 20_memory.md R57, R59, R60: word accesses at even addresses: storage little endian, the five registers
at their addresses, the rest of the device region refused. The refusal is the spec's decision D22 (log
entry 24). -/
def Obligations.WordAccesses : Prop :=
  ∀ (s : State) (a v : Word), isOdd a = false →
    (a.toNat < 0xFE00 →
      (∃ w, readWord a s = .value w s ∧ w.toNat = wordAt s a.toNat) ∧
      ∃ t, writeWord a v s = .next t ∧ readWord a t = .value v t ∧ t = { s with mem := t.mem } ∧
        SameStorageExcept [a.toNat, a.toNat + 1] s t) ∧
    (∀ d, (d, a) ∈ [(DeviceRegister.kbsr, (0xFE00 : Word)), (.kbdr, 0xFE02), (.dsr, 0xFE04),
        (.ddr, 0xFE06), (.mcr, 0xFFFE)] →
      readWord a s = .value (readDevice d s).1 (readDevice d s).2 ∧
      writeWord a v s = .next (writeDevice d v s)) ∧
    (0xFE08 ≤ a.toNat → a.toNat ≤ 0xFFFC → readWord a s = .refused (.unassignedDeviceAddress a) ∧
      writeWord a v s = .refused (.unassignedDeviceAddress a))

/-- 20_memory.md R53: a byte access and a word access to the same storage see each other. -/
def Obligations.MixedWidthAccesses : Prop :=
  ∀ (s : State) (x v : Word) (b : Byte), isOdd x = false → x.toNat < 0xFE00 →
    (∀ t, writeWord x v s = .next t →
      readByte x t = .value (v.extractLsb' 0 8) t ∧
      readByte (x + 1) t = .value (v.extractLsb' 8 8) t) ∧
    (∀ t, writeByte x b s = .next t → ∃ w w' : Word, readWord x s = .value w s ∧
      readWord x t = .value w' t ∧ w'.extractLsb' 0 8 = b ∧ w'.extractLsb' 8 8 = w.extractLsb' 8 8) ∧
    (∀ t, writeByte (x + 1) b s = .next t → ∃ w w' : Word, readWord x s = .value w s ∧
      readWord x t = .value w' t ∧ w'.extractLsb' 8 8 = b ∧ w'.extractLsb' 0 8 = w.extractLsb' 0 8)

/-- 10_state.md R38: an instruction other than STB and STW leaves every byte of storage unchanged. -/
def Obligations.OnlyStoresChangeStorage : Prop :=
  ∀ (i : Instr) (s t : State), (∀ sr b f, i ≠ .stb sr b f) → (∀ sr b f, i ≠ .stw sr b f) →
    exec i s = .next t → SameStorageExcept [] s t

/-! ## Steps, devices and the interrupt -/

/-- 10_state.md R27, 20_memory.md R70: a step that fetches runs the instruction the two bytes at the PC
decode to, with the PC incremented, after the boundary's device steps; a reserved encoding faults. The
fault of a reserved encoding is the spec's decision D3 (log entry 17), that it is terminal and carries the
instruction's address D1 (log entry 16). -/
def Obligations.StepRunsTheDecodedInstruction : Prop :=
  ∀ s : State, Fetches s → isOdd s.pc = false → s.pc.toNat < 0xFE00 →
    let d := decodeBytes [Memory.read s.mem s.pc.toNat, Memory.read s.mem (s.pc.toNat + 1)]
    (∀ i, d = .word (.instr i) [] → step s = exec i { deviceBoundary s with pc := s.pc + 2 }) ∧
    ∀ w, d = .word (.reservedEncoding w) [] → step s = .fault (.reservedEncoding w s.pc)

/-- The placing of an instruction at the PC (log entry 15): the next step of a machine that fetches runs
it, as `decodeTableWord` reads it. -/
def Obligations.PlacedInstructionIsRunNext : Prop :=
  ∀ (s : State) (w : Nat) (i : Instr), Fetches s → isOdd s.pc = false → s.pc.toNat < 0xFE00 →
    decodeTableWord 16 w = some i →
    step (s.withFetchWord 16 w) = exec i (incrementPc (deviceBoundary (s.withFetchWord 16 w)))

/-- 20_memory.md R71: a fetch with the PC in the device region is refused, at every boundary where the
machine fetches, whatever the device registers hold. The refusal is the spec's decision D17 (log entry
24). -/
def Obligations.FetchInTheDeviceRegionIsRefused : Prop :=
  ∀ s : State, Fetches s → 0xFE00 ≤ s.pc.toNat → step s = .refused (.deviceFetch s.pc)

/-- 60_exceptions.md R200: a machine whose clock is stopped fetches nothing and takes no interrupt. That its
step is the state itself is the model's choice, log entry 7. That nothing sets the bit again is the
spec's decision D18 (log entry 26). -/
def Obligations.HaltedMachineStays : Prop :=
  ∀ s : State, s.halted → step s = .next s ∧ ∀ k, Host.Core.run Sys2Proof.core k s = Host.Outcome.next s

/-- 60_exceptions.md R184, R185, R187: at a boundary of a running machine the interrupt is taken exactly
when KBSR[15], KBSR[14] and user mode hold together after the device steps; else the machine fetches.
User mode only and the level request are the spec's decisions D9 and D10 (log entries 18, 23). -/
def Obligations.InterruptIsTakenOnRequestInUserMode : Prop :=
  ∀ s : State, s.clockEnable = true →
    let b := deviceBoundary s
    (b.kbReady = true ∧ b.kbIE = true ∧ b.priv = .user → step s = initiateInterrupt b) ∧
    (¬ (b.kbReady = true ∧ b.kbIE = true ∧ b.priv = .user) → step s = instructionCycle b)

/-- 60_exceptions.md R186, R189: interrupt initiation with the stack in storage: the PSR at SSP - 2, the PC
at SSP - 4, the SSP 4 lower, supervisor mode, the PC from x0280; nothing else changes, not the codes,
not KBSR. The order of the pushes is the spec's decision D8 (log entry 23), the PSR word D7 (log entry 20). With the SSP at x0282 or x0284
the pushes overlap x0280, which a model may refuse (U18); that initiation completes there, with the PC from
the memory before the pushes, is log entry 12. -/
def Obligations.InterruptInitiationSavesPsrAndPc : Prop :=
  ∀ s : State, isOdd s.ssp = false → 4 ≤ s.ssp.toNat → s.ssp.toNat ≤ 0xFE00 →
    wordAt s 0x280 % 2 = 0 →
    ∃ t, initiateInterrupt s = .next t ∧ t.priv = .supervisor ∧ t.ssp = s.ssp - 4 ∧ t.reg .r6 = t.ssp ∧
      t.pc.toNat = wordAt s 0x280 ∧ wordAt t (s.ssp.toNat - 2) = (psrWord s).toNat ∧
      wordAt t (s.ssp.toNat - 4) = s.pc.toNat ∧ SameCodes s t ∧ t.usp = s.usp ∧
      (∀ r, r ≠ .r6 → t.reg r = s.reg r) ∧
      SameStorageExcept [s.ssp.toNat - 4, s.ssp.toNat - 3, s.ssp.toNat - 2, s.ssp.toNat - 1] s t ∧
      SameDevices s t

/-- 60_exceptions.md R186: the pushes of interrupt initiation reach whatever their addresses are, device
registers among them, each by the rule of its address, the PSR first; a refused push is a refused
initiation. The order is the spec's decision D8 (log entry 23), the PSR word D7 (log entry 20), the wrap of
SSP - 2 and SSP - 4 at SSP = 0 and 2 D6 (log entry 25), the vector read before the pushes log entry 12. -/
def Obligations.InterruptInitiationPushesAnywhere : Prop :=
  ∀ s : State, isOdd s.ssp = false → wordAt s 0x280 % 2 = 0 →
    (∀ r, writeWord (s.ssp - 2) (psrWord s) { s with priv := .supervisor } = .refused r →
      initiateInterrupt s = .refused r) ∧
    ∀ s1, writeWord (s.ssp - 2) (psrWord s) { s with priv := .supervisor } = .next s1 →
      (∀ r, writeWord (s.ssp - 4) s.pc s1 = .refused r → initiateInterrupt s = .refused r) ∧
      ∀ s2, writeWord (s.ssp - 4) s.pc s1 = .next s2 →
        ∃ v : Word, v.toNat = wordAt s 0x280 ∧
          initiateInterrupt s = .next { s2 with ssp := s.ssp - 4, pc := v }

/-- 60_exceptions.md R181, R186: interrupt initiation raises on an odd SSP, then on an odd vector, with the
PC that was to be pushed. The raise is the spec's decision D15 (log entry 22), that it is a terminal fault
carrying that PC its decision D1 (R180, log entry 16). -/
def Obligations.InterruptInitiationRaisesOnOddWords : Prop :=
  ∀ s : State,
    (isOdd s.ssp = true → initiateInterrupt s = .fault (.illegalOperandAddress s.ssp s.pc)) ∧
    (isOdd s.ssp = false → wordAt s 0x280 % 2 = 1 → ∃ v : Word, v.toNat = wordAt s 0x280 ∧
      initiateInterrupt s = .fault (.illegalOperandAddress v s.pc))

/-- 60_exceptions.md R190, 43_system.md R164: an RTI executed with the stack as interrupt initiation left it
returns to the interrupted process: PC, mode, codes and both stack pointers as they were. The layout of
the stack is the spec's decision D8 (log entry 23); with the SSP at x0282 or x0284 that initiation completes is
log entry 12. -/
def Obligations.RtiUndoesInterruptInitiation : Prop :=
  ∀ s t u : State, isOdd s.ssp = false → 4 ≤ s.ssp.toNat → s.ssp.toNat ≤ 0xFE00 → isOdd s.pc = false →
    initiateInterrupt s = .next t →
    u.priv = .supervisor → u.ssp = t.ssp → u.usp = t.usp →
    (∀ a, s.ssp.toNat - 4 ≤ a → a < s.ssp.toNat → Memory.read u.mem a = Memory.read t.mem a) →
    ∃ x, exec .rti u = .next x ∧ x.pc = s.pc ∧ x.priv = s.priv ∧ x.n = s.n ∧ x.z = s.z ∧ x.p = s.p ∧
      x.ssp = s.ssp ∧ x.usp = s.usp ∧ (∀ r, r ≠ .r6 → x.reg r = u.reg r)

/-- 60_exceptions.md R201, 20_memory.md R72: a boundary's device steps act in their order; `key(c)` writes
the KBDR and sets KBSR[15], `ready` sets DSR[15]; no agent touches storage, a register, the PC or the
PSR. The agents are the spec's decision D11 (log entry 21). That a key struck while KBSR[15] = 1 overwrites
the unread character is the model's choice, log entry 11, one of the two readings R201 allows; the schedule,
with the free value of the boundaries after it, is log entry 9. -/
def Obligations.DeviceAgentsTouchOnlyTheirRegisters : Prop :=
  (∀ s c rest later, s.schedule = (.key c :: rest) :: later →
    deviceBoundary s = deviceBoundary { s with kbdr := c, kbReady := true, schedule := rest :: later }) ∧
  (∀ s rest later, s.schedule = (.ready :: rest) :: later →
    deviceBoundary s = deviceBoundary { s with dsReady := true, schedule := rest :: later }) ∧
  (∀ s later, s.schedule = [] :: later → deviceBoundary s = { s with schedule := later }) ∧
  (∀ s, s.schedule = [] → deviceBoundary s = deviceBoundary
    { s with schedule := [Config.laterDeviceSteps s.boundaryCount], boundaryCount := s.boundaryCount + 1 }) ∧
  ∀ s, let b := deviceBoundary s
    b = { s with kbReady := b.kbReady, kbdr := b.kbdr, dsReady := b.dsReady, schedule := s.schedule.tail,
                 boundaryCount := s.boundaryCount + (if s.schedule = [] then 1 else 0) }

/-! ## Invariants -/

/-- 10_state.md R28 and the canonical form of memory (log entry 5): every step that answers a next state
keeps memory canonical and the PC even. That words loaded into the PC are checked is the spec's decision
D15 (log entry 22). -/
def Obligations.StepKeepsPcEvenAndMemoryCanonical : Prop :=
  ∀ s t : State, MachineInv s → step s = .next t → MachineInv t

/-- The state after reset meets the invariant, runs, and has the values 10_state.md R43 decides: KBSR[15] =
0, KBSR[14] = 0, MCR[15] = 1. The PC is log entry 1, the empty memory log entry 5. -/
def Obligations.ResetMeetsTheInvariant : Prop :=
  MachineInv State.reset ∧ State.reset.kbReady = false ∧ State.reset.kbIE = false ∧
    State.reset.clockEnable = true ∧ State.reset.pc.toNat < 0xFE00

/-- 10_state.md R28, 60_exceptions.md R182: from a state with the invariant no step stops for an unaligned word
access, so the checks the spec places before each word access are complete. That an odd SSP raises at RTI and
at interrupt initiation, and an odd word loaded into the PC at all, is the spec's decision D15 (log entry 22);
the refusal is the model's choice, log entry 14. -/
def Obligations.NoStepMakesAnUnalignedWordAccess : Prop :=
  ∀ (s : State) (a : Word), MachineInv s → step s ≠ .refused (.unalignedWordAccess a)
end

