-- ==== Sys2Proof/Laws/Decode.lean ====
section
/-! SUPPORT. The laws of the fields of an instruction word. -/

namespace Sys2Proof

@[simp] theorem Reg.ofCode_code (r : Reg) : Reg.ofCode r.code = r := by cases r <;> rfl

@[simp] theorem Reg.code_ofCode (c : BitVec 3) : (Reg.ofCode c).code = c := by
  revert c
  decide

/-- A bit of a word that has one field: the field's bit, or 0 outside it. -/
theorem getLsbD_field {n : Nat} (pos : Nat) (x : BitVec n) (k : Nat) :
    (field pos x).getLsbD k = (decide (k < 16) && (decide (pos ≤ k) && x.getLsbD (k - pos))) := by
  by_cases h1 : k < 16 <;> by_cases h2 : pos ≤ k
  · simp [field, h1, h2]
  · simp [field, h1, h2, Nat.lt_of_not_le h2]
  · simp [field, h1]
  · simp [field, h1]

theorem getElem_field {n : Nat} (pos : Nat) (x : BitVec n) {k : Nat} (h : k < 16) :
    (field pos x)[k] = (decide (pos ≤ k) && x.getLsbD (k - pos)) := by
  rw [← BitVec.getLsbD_eq_getElem, getLsbD_field]
  simp [h]

/-- A word read back from its two bytes (R52). -/
@[simp] theorem wordOfBytes_bytes (w : Word) : wordOfBytes (lowByte w) (highByte w) = w := by
  apply BitVec.eq_of_getLsbD_eq
  intro k hk
  simp only [wordOfBytes, BitVec.getLsbD_or, getLsbD_field, lowByte, highByte,
    BitVec.getLsbD_extractLsb']
  by_cases h : 8 ≤ k
  · have : ¬ k < 8 := by omega
    have h2 : k - 8 < 8 := by omega
    simp [h, this, h2, hk]
  · have : k < 8 := by omega
    simp [h, this, hk]

@[simp] theorem lowByte_wordOfBytes (lo hi : Byte) : lowByte (wordOfBytes lo hi) = lo := by
  apply BitVec.eq_of_getLsbD_eq
  intro k hk
  have h1 : k < 16 := by omega
  have h2 : ¬ 8 ≤ k := by omega
  simp [wordOfBytes, lowByte, getElem_field, hk, h1, h2]

@[simp] theorem highByte_wordOfBytes (lo hi : Byte) : highByte (wordOfBytes lo hi) = hi := by
  apply BitVec.eq_of_getLsbD_eq
  intro k hk
  have h1 : 8 + k < 16 := by omega
  simp [wordOfBytes, highByte, getElem_field, hk, h1]

/-- The decoder on the bytes of a word, in address order, reads the word. -/
@[simp] theorem decodeBytes_bytes (w : Word) (rest : List Byte) :
    decodeBytes (lowByte w :: highByte w :: rest) = .word (decodeWord w) rest := by
  simp [decodeBytes]

end Sys2Proof
end

