-- ==== Sys2Proof/Laws/Memory.lean ====
section
/-! SUPPORT. The laws of storage: read after write, and the canonical form. -/

namespace Sys2Proof.Machine

theorem read_erase (m : Memory) (a a' : Nat) :
    Memory.read (Memory.erase m a) a' = if a' = a then unlistedByte a' else Memory.read m a' := by
  induction m with
  | nil => simp [Memory.erase, Memory.read]
  | cons c m ih =>
    obtain ⟨k, b⟩ := c
    by_cases h1 : k = a
    · simp only [Memory.erase, h1, if_true, ih, Memory.read]
      by_cases h2 : a' = a
      · simp [h2]
      · simp [h2, Ne.symm h2]
    · simp only [Memory.erase, h1, if_false, Memory.read, ih]
      by_cases h2 : k = a'
      · subst h2; simp [h1]
      · simp [h2]

theorem read_insert (m : Memory) (a a' : Nat) (b : Byte) :
    Memory.read (Memory.insert (Memory.erase m a) a b) a' = if a' = a then b else Memory.read m a' := by
  induction m with
  | nil => simp [Memory.erase, Memory.insert, Memory.read, eq_comm]
  | cons c m ih =>
    obtain ⟨k, c⟩ := c
    by_cases h1 : k = a
    · simp only [Memory.erase, h1, if_true, ih, Memory.read]
      by_cases h2 : a' = a
      · simp [h2]
      · simp [h2, Ne.symm h2]
    · simp only [Memory.erase, h1, if_false, Memory.insert]
      by_cases h3 : a < k
      · simp only [h3, if_true, Memory.read, read_erase]
        by_cases h2 : a' = a
        · simp [h2]
        · by_cases h4 : k = a' <;> simp [h2, h4, Ne.symm h2]
      · simp only [h3, if_false, Memory.read, ih]
        by_cases h4 : k = a'
        · subst h4; simp [h1]
        · simp [h4]

/-- A read after a write: the byte written at its address, every other location as before (R58). -/
theorem read_write (m : Memory) (a a' : Nat) (b : Byte) :
    Memory.read (Memory.write m a b) a' = if a' = a then b else Memory.read m a' := by
  unfold Memory.write
  by_cases h : b = unlistedByte a
  · simp only [h, if_true, read_erase]
    by_cases h2 : a' = a
    · subst h2; simp
    · simp [h2]
  · simp only [h, if_false, read_insert]

@[simp] theorem read_write_same (m : Memory) (a : Nat) (b : Byte) :
    Memory.read (Memory.write m a b) a = b := by simp [read_write]

theorem read_write_other (m : Memory) {a a' : Nat} (b : Byte) (h : a' ≠ a) :
    Memory.read (Memory.write m a b) a' = Memory.read m a' := by simp [read_write, h]

/-! ## The canonical form -/

theorem wfFrom_weaken {m : Memory} {lo lo' : Nat} (h : lo' ≤ lo) (hm : Memory.wfFrom lo m = true) :
    Memory.wfFrom lo' m = true := by
  cases m with
  | nil => rfl
  | cons c m =>
    obtain ⟨k, b⟩ := c
    simp only [Memory.wfFrom, Bool.and_eq_true, decide_eq_true_eq] at hm ⊢
    exact ⟨⟨⟨by omega, hm.1.1.2⟩, hm.1.2⟩, hm.2⟩

theorem wfFrom_erase {m : Memory} {lo : Nat} (a : Nat) (hm : Memory.wfFrom lo m = true) :
    Memory.wfFrom lo (Memory.erase m a) = true := by
  induction m generalizing lo with
  | nil => rfl
  | cons c m ih =>
    obtain ⟨k, b⟩ := c
    simp only [Memory.wfFrom, Bool.and_eq_true, decide_eq_true_eq] at hm
    by_cases h : k = a
    · simp only [Memory.erase, h, if_true]
      exact ih (wfFrom_weaken (by omega) hm.2)
    · simp only [Memory.erase, h, if_false, Memory.wfFrom, Bool.and_eq_true, decide_eq_true_eq]
      exact ⟨hm.1, ih hm.2⟩

theorem wfFrom_insert {m : Memory} {lo a : Nat} {b : Byte} (hlo : lo ≤ a) (ha : a < storageEnd)
    (hb : b ≠ unlistedByte a) (hm : Memory.wfFrom lo m = true) :
    Memory.wfFrom lo (Memory.insert (Memory.erase m a) a b) = true := by
  induction m generalizing lo with
  | nil => simp [Memory.erase, Memory.insert, Memory.wfFrom, hlo, ha, hb]
  | cons c m ih =>
    obtain ⟨k, c⟩ := c
    simp only [Memory.wfFrom, Bool.and_eq_true, decide_eq_true_eq] at hm
    by_cases h : k = a
    · simp only [Memory.erase, h, if_true]
      exact ih hlo (wfFrom_weaken (by omega) hm.2)
    · simp only [Memory.erase, h, if_false, Memory.insert]
      by_cases h3 : a < k
      · simp only [h3, if_true, Memory.wfFrom, Bool.and_eq_true, decide_eq_true_eq, bne_iff_ne]
        refine ⟨⟨⟨hlo, ha⟩, hb⟩, ⟨⟨by omega, hm.1.1.2⟩, by simpa using hm.1.2⟩, wfFrom_erase a hm.2⟩
      · simp only [h3, if_false, Memory.wfFrom, Bool.and_eq_true, decide_eq_true_eq]
        exact ⟨hm.1, ih (by omega) hm.2⟩

/-- A write to storage keeps the canonical form. -/
theorem wf_write {m : Memory} {a : Nat} (b : Byte) (ha : a < storageEnd) (hm : Memory.wf m = true) :
    Memory.wf (Memory.write m a b) = true := by
  unfold Memory.write Memory.wf at *
  split
  · exact wfFrom_erase a hm
  · exact wfFrom_insert (Nat.zero_le a) ha ‹_› hm

theorem wf_nil : Memory.wf [] = true := rfl

/-- A memory in canonical form lists nothing below its lowest address. -/
theorem read_below {m : Memory} {lo a : Nat} (hm : Memory.wfFrom lo m = true) (ha : a < lo) :
    Memory.read m a = unlistedByte a := by
  induction m generalizing lo with
  | nil => rfl
  | cons c m ih =>
    obtain ⟨k, b⟩ := c
    simp only [Memory.wfFrom, Bool.and_eq_true, decide_eq_true_eq] at hm
    have hk : k ≠ a := by omega
    simp only [Memory.read, if_neg hk]
    exact ih hm.2 (by omega)

/-- A memory in canonical form with an entry does not read, at the entry's address, as an unlisted
address. -/
theorem read_head_ne {m : Memory} {lo k : Nat} {b : Byte} (hm : Memory.wfFrom lo ((k, b) :: m) = true) :
    Memory.read ((k, b) :: m) k ≠ unlistedByte k := by
  simp only [Memory.wfFrom, Bool.and_eq_true, bne_iff_ne] at hm
  simpa [Memory.read] using hm.1.2

/-- Memories in canonical form that read alike are equal data. -/
theorem eq_of_read_eq {m m' : Memory} (hm : Memory.wf m = true) (hm' : Memory.wf m' = true)
    (h : ∀ a, Memory.read m a = Memory.read m' a) : m = m' := by
  unfold Memory.wf at hm hm'
  generalize 0 = lo at hm hm'
  induction m generalizing lo m' with
  | nil =>
    cases m' with
    | nil => rfl
    | cons c m' => exact absurd (h c.1).symm (read_head_ne hm')
  | cons c m ih =>
    obtain ⟨k, b⟩ := c
    cases m' with
    | nil => exact absurd (h k) (read_head_ne hm)
    | cons c' m' =>
      obtain ⟨k', b'⟩ := c'
      have hne := read_head_ne hm
      have hne' := read_head_ne hm'
      have hk := h k
      have hk' := h k'
      simp only [Memory.wfFrom, Bool.and_eq_true, decide_eq_true_eq] at hm hm'
      have e : k = k' := by
        rcases Nat.lt_trichotomy k k' with hlt | heq | hgt
        · rw [hk, Memory.read, if_neg (by omega), read_below hm'.2 (by omega)] at hne
          exact absurd rfl hne
        · exact heq
        · rw [← hk', Memory.read, if_neg (by omega), read_below hm.2 (by omega)] at hne'
          exact absurd rfl hne'
      subst e
      simp only [Memory.read, if_true] at hk
      subst hk
      congr 1
      refine ih (fun a => ?_) (k + 1) hm.2 hm'.2
      by_cases ha : k = a
      · rw [read_below hm.2 (by omega), read_below hm'.2 (by omega)]
      · simpa [Memory.read, ha] using h a

end Sys2Proof.Machine
end

