-- ==== Sys2Proof/Laws/State.lean ====
section
/-! SUPPORT. One lemma for each field under each update of the state, and the register accessors. -/

namespace Sys2Proof.Machine

/-! ## `setReg`: a field that is no general register keeps its value -/

section setReg
variable (s : State) (r : Reg) (v : Word)

/-- A projection that no register write changes: the common proof of the lemmas below. -/
theorem setReg_keeps {α : Type} (f : State → α)
    (h0 : f { s with r0 := v } = f s) (h1 : f { s with r1 := v } = f s)
    (h2 : f { s with r2 := v } = f s) (h3 : f { s with r3 := v } = f s)
    (h4 : f { s with r4 := v } = f s) (h5 : f { s with r5 := v } = f s)
    (h7 : f { s with r7 := v } = f s) (hs : f { s with ssp := v } = f s)
    (hu : f { s with usp := v } = f s) : f (s.setReg r v) = f s := by
  cases r <;> simp only [State.setReg] <;> first | assumption | (split <;> assumption)

@[simp] theorem setReg_pc : (s.setReg r v).pc = s.pc := by apply setReg_keeps (f := State.pc) <;> rfl
@[simp] theorem setReg_priv : (s.setReg r v).priv = s.priv := by apply setReg_keeps (f := State.priv) <;> rfl
@[simp] theorem setReg_n : (s.setReg r v).n = s.n := by apply setReg_keeps (f := State.n) <;> rfl
@[simp] theorem setReg_z : (s.setReg r v).z = s.z := by apply setReg_keeps (f := State.z) <;> rfl
@[simp] theorem setReg_p : (s.setReg r v).p = s.p := by apply setReg_keeps (f := State.p) <;> rfl
@[simp] theorem setReg_mem : (s.setReg r v).mem = s.mem := by apply setReg_keeps (f := State.mem) <;> rfl
@[simp] theorem setReg_kbReady : (s.setReg r v).kbReady = s.kbReady := by apply setReg_keeps (f := State.kbReady) <;> rfl
@[simp] theorem setReg_kbIE : (s.setReg r v).kbIE = s.kbIE := by apply setReg_keeps (f := State.kbIE) <;> rfl
@[simp] theorem setReg_kbdr : (s.setReg r v).kbdr = s.kbdr := by apply setReg_keeps (f := State.kbdr) <;> rfl
@[simp] theorem setReg_dsReady : (s.setReg r v).dsReady = s.dsReady := by apply setReg_keeps (f := State.dsReady) <;> rfl
@[simp] theorem setReg_ddr : (s.setReg r v).ddr = s.ddr := by apply setReg_keeps (f := State.ddr) <;> rfl
@[simp] theorem setReg_clockEnable : (s.setReg r v).clockEnable = s.clockEnable := by apply setReg_keeps (f := State.clockEnable) <;> rfl
@[simp] theorem setReg_console : (s.setReg r v).console = s.console := by apply setReg_keeps (f := State.console) <;> rfl
@[simp] theorem setReg_schedule : (s.setReg r v).schedule = s.schedule := by apply setReg_keeps (f := State.schedule) <;> rfl
@[simp] theorem setReg_boundaryCount : (s.setReg r v).boundaryCount = s.boundaryCount := by apply setReg_keeps (f := State.boundaryCount) <;> rfl
@[simp] theorem setReg_freeCount : (s.setReg r v).freeCount = s.freeCount := by apply setReg_keeps (f := State.freeCount) <;> rfl

/-- A register reads what was written to it (R21, R23). -/
@[simp] theorem reg_setReg_same : (s.setReg r v).reg r = v := by
  cases r <;> simp only [State.setReg, State.reg]
  cases h : s.priv <;> simp

/-- The other registers are unchanged. -/
theorem reg_setReg_other {r' : Reg} (h : r' ≠ r) : (s.setReg r v).reg r' = s.reg r' := by
  cases r <;> cases r' <;> first
    | exact absurd rfl h
    | rfl
    | (cases hp : s.priv <;> simp [State.setReg, State.reg, hp])

/-- The R6 cell that is not selected is unchanged by every register write (R23). -/
@[simp] theorem hiddenSp_setReg : (s.setReg r v).hiddenSp = s.hiddenSp := by
  cases r <;> first
    | rfl
    | (cases hp : s.priv <;> simp [State.setReg, State.hiddenSp, hp])

end setReg

/-! ## `setcc` and `writeDr` -/

section codes
variable (s : State) (r : Reg) (v : Word)

@[simp] theorem setcc_n : (setcc v s).n = isNegative v := rfl
@[simp] theorem setcc_z : (setcc v s).z = isZero v := rfl
@[simp] theorem setcc_p : (setcc v s).p = isPositive v := rfl
@[simp] theorem setcc_reg : (setcc v s).reg r = s.reg r := by cases r <;> rfl
@[simp] theorem setcc_hiddenSp : (setcc v s).hiddenSp = s.hiddenSp := rfl
@[simp] theorem setcc_pc : (setcc v s).pc = s.pc := rfl
@[simp] theorem setcc_priv : (setcc v s).priv = s.priv := rfl
@[simp] theorem setcc_mem : (setcc v s).mem = s.mem := rfl
@[simp] theorem setcc_kbReady : (setcc v s).kbReady = s.kbReady := rfl
@[simp] theorem setcc_kbIE : (setcc v s).kbIE = s.kbIE := rfl
@[simp] theorem setcc_kbdr : (setcc v s).kbdr = s.kbdr := rfl
@[simp] theorem setcc_dsReady : (setcc v s).dsReady = s.dsReady := rfl
@[simp] theorem setcc_ddr : (setcc v s).ddr = s.ddr := rfl
@[simp] theorem setcc_clockEnable : (setcc v s).clockEnable = s.clockEnable := rfl
@[simp] theorem setcc_console : (setcc v s).console = s.console := rfl
@[simp] theorem setcc_schedule : (setcc v s).schedule = s.schedule := rfl
@[simp] theorem setcc_boundaryCount : (setcc v s).boundaryCount = s.boundaryCount := rfl
@[simp] theorem setcc_freeCount : (setcc v s).freeCount = s.freeCount := rfl

/-- The codes of a result agree with its sign as a two's complement integer (R31). -/
theorem codesAre_setcc : CodesAre v (setcc v s) := by
  have hneg : isNegative v = true ↔ v.toInt < 0 := by
    have := BitVec.toInt_neg_iff (x := v)
    simp only [isNegative, ← BitVec.msb_eq_getLsbD_last v, this, BitVec.msb_eq_decide]
    simp
    omega
  have hzero : isZero v = true ↔ v.toInt = 0 := by
    simp only [isZero, beq_iff_eq]
    exact ⟨fun h => by simp [h], fun h => BitVec.eq_of_toInt_eq (by simpa using h)⟩
  refine ⟨hneg, hzero, ?_⟩
  have : isPositive v = true ↔ ¬ isNegative v = true ∧ ¬ isZero v = true := by simp [isPositive]
  simp only [setcc_p, this, hneg, hzero]
  omega

/-- What `x[DR] <- v; setcc(v)` does, whole (R32, R121). -/
theorem writeDr_spec : (writeDr r v s).reg r = v ∧ WritesOnlyDrAndCodes r s (writeDr r v s) := by
  refine ⟨by simp [writeDr], ?_, ⟨?_, by simp [writeDr]⟩, by simp [writeDr], by simp [writeDr],
    by simp [writeDr, SameStorageExcept], ?_⟩
  · simpa [writeDr] using codesAre_setcc (s.setReg r v) v
  · intro r' hr'
    simpa [writeDr] using reg_setReg_other s r v (by simpa using hr')
  · simp [writeDr, SameDevices, SameKeyboard, SameDisplay, SameStreams]

end codes

/-! ## Registers under the other updates -/

section fields
variable (s : State) (r : Reg)

@[simp] theorem reg_pc (t : Word) : ({ s with pc := t } : State).reg r = s.reg r := by cases r <;> rfl
@[simp] theorem reg_mem (m : Memory) : ({ s with mem := m } : State).reg r = s.reg r := by cases r <;> rfl
@[simp] theorem reg_kbReady (b : Bool) : ({ s with kbReady := b } : State).reg r = s.reg r := by cases r <;> rfl
@[simp] theorem reg_kbIE (b : Bool) : ({ s with kbIE := b } : State).reg r = s.reg r := by cases r <;> rfl
@[simp] theorem reg_clockEnable (b : Bool) : ({ s with clockEnable := b } : State).reg r = s.reg r := by cases r <;> rfl
@[simp] theorem reg_freeCount (k : Nat) : ({ s with freeCount := k } : State).reg r = s.reg r := by cases r <;> rfl
@[simp] theorem reg_schedule (l : List (List DeviceStep)) : ({ s with schedule := l } : State).reg r = s.reg r := by cases r <;> rfl
@[simp] theorem reg_boundaryCount (l : Nat) : ({ s with boundaryCount := l } : State).reg r = s.reg r := by cases r <;> rfl
@[simp] theorem reg_ssp_user (v : Word) (h : s.priv = .user) : ({ s with ssp := v } : State).reg r = s.reg r := by
  cases r <;> simp [State.reg, h]
@[simp] theorem reg_usp_supervisor (v : Word) (h : s.priv = .supervisor) : ({ s with usp := v } : State).reg r = s.reg r := by
  cases r <;> simp [State.reg, h]

/-- The selected R6 cell in each mode (R23). -/
theorem reg_r6_supervisor (h : s.priv = .supervisor) : s.reg .r6 = s.ssp := by simp [State.reg, h]
theorem reg_r6_user (h : s.priv = .user) : s.reg .r6 = s.usp := by simp [State.reg, h]

@[simp] theorem hiddenSp_pc (t : Word) : ({ s with pc := t } : State).hiddenSp = s.hiddenSp := rfl
@[simp] theorem hiddenSp_mem (m : Memory) : ({ s with mem := m } : State).hiddenSp = s.hiddenSp := rfl

/-- The mode of a mode's bit. -/
@[simp] theorem Mode.ofBit_bit (m : Mode) : Mode.ofBit m.bit = m := by cases m <;> rfl

end fields

/-! ## `incrementPc`, `loadPsr`, `storeByte`, `storeWord` -/

section updates
variable (s : State) (r : Reg) (a : Nat) (b : Byte) (v : Word)

@[simp] theorem incrementPc_pc : (incrementPc s).pc = s.pc + 2 := rfl
@[simp] theorem incrementPc_reg : (incrementPc s).reg r = s.reg r := by cases r <;> rfl
@[simp] theorem incrementPc_priv : (incrementPc s).priv = s.priv := rfl
@[simp] theorem incrementPc_mem : (incrementPc s).mem = s.mem := rfl
@[simp] theorem incrementPc_clockEnable : (incrementPc s).clockEnable = s.clockEnable := rfl

@[simp] theorem loadPsr_pc : (loadPsr v s).pc = s.pc := rfl
@[simp] theorem loadPsr_priv : (loadPsr v s).priv = Mode.ofBit (v.getLsbD 15) := rfl
@[simp] theorem loadPsr_n : (loadPsr v s).n = v.getLsbD 2 := rfl
@[simp] theorem loadPsr_z : (loadPsr v s).z = v.getLsbD 1 := rfl
@[simp] theorem loadPsr_p : (loadPsr v s).p = v.getLsbD 0 := rfl
@[simp] theorem loadPsr_ssp : (loadPsr v s).ssp = s.ssp := rfl
@[simp] theorem loadPsr_usp : (loadPsr v s).usp = s.usp := rfl
@[simp] theorem loadPsr_mem : (loadPsr v s).mem = s.mem := rfl

@[simp] theorem storeByte_mem : (storeByte a b s).mem = Memory.write s.mem a b := rfl
@[simp] theorem storeByte_reg : (storeByte a b s).reg r = s.reg r := by cases r <;> rfl
@[simp] theorem storeByte_pc : (storeByte a b s).pc = s.pc := rfl
@[simp] theorem storeByte_priv : (storeByte a b s).priv = s.priv := rfl
@[simp] theorem storeWord_mem :
    (storeWord a v s).mem = Memory.write (Memory.write s.mem a (lowByte v)) (a + 1) (highByte v) := rfl
@[simp] theorem storeWord_reg : (storeWord a v s).reg r = s.reg r := by cases r <;> rfl
@[simp] theorem storeWord_pc : (storeWord a v s).pc = s.pc := rfl
@[simp] theorem storeWord_priv : (storeWord a v s).priv = s.priv := rfl
@[simp] theorem storeWord_clockEnable : (storeWord a v s).clockEnable = s.clockEnable := rfl
@[simp] theorem storeWord_schedule : (storeWord a v s).schedule = s.schedule := rfl
@[simp] theorem storeWord_boundaryCount : (storeWord a v s).boundaryCount = s.boundaryCount := rfl

end updates

end Sys2Proof.Machine
end

