-- ==== Sys2Proof/Laws/Ops.lean ====
section
/-! SUPPORT. For each shared operation, once, everything it can do. -/

namespace Sys2Proof.Machine

/-! ## Outcomes -/

/-- A read gone on with answers a next state only through a value. -/
theorem andThen_next {α : Type} {r : ReadResult α} {f : α → State → Result} {t : State}
    (h : r.andThen f = .next t) : ∃ v s, r = .value v s ∧ f v s = .next t := by
  cases r with
  | value v s => exact ⟨v, s, rfl, h⟩
  | refused e => cases h

/-- An outcome gone on from answers a next state only from a next state. -/
theorem andThenNext_next {o : Result} {f : State → Result} {t : State}
    (h : andThenNext o f = .next t) : ∃ s, o = .next s ∧ f s = .next t := by
  cases o with
  | next s => exact ⟨s, rfl, h⟩
  | fault e => cases h
  | refused e => cases h

@[simp] theorem andThen_value {α : Type} (v : α) (s : State) (f : α → State → Result) :
    (ReadResult.value v s).andThen f = f v s := rfl

@[simp] theorem andThen_refused {α : Type} (e : Refusal) (f : α → State → Result) :
    (ReadResult.refused e).andThen f = .refused e := rfl

@[simp] theorem andThenNext_of_next (s : State) (f : State → Result) :
    andThenNext (.next s) f = f s := rfl

/-! ## Addresses -/

theorem inDeviceRegion_false {a : Word} : inDeviceRegion a = false ↔ a.toNat < storageEnd := by
  simp [inDeviceRegion, storageEnd]

theorem isOdd_eq (a : Word) : isOdd a = decide (a.toNat % 2 = 1) := by
  simp [isOdd, BitVec.getLsbD, Nat.testBit_zero]

/-- Evenness is kept by the addition of an even value, modulo 2^16. -/
theorem isOdd_add {a b : Word} (hb : isOdd b = false) : isOdd (a + b) = isOdd a := by
  simp only [isOdd_eq, decide_eq_false_iff_not, decide_eq_decide, BitVec.toNat_add] at *
  omega

/-- A value shifted left by one bit is even. -/
theorem isOdd_lshf_one (a : Word) : isOdd (lshf a 1) = false := by
  simp [isOdd, lshf]

/-! ## Device registers -/

/-- A read of a device register changes at most KBSR[15] and the count of free reads. -/
theorem readDevice_changes (d : DeviceRegister) (s : State) :
    ∃ k c, (readDevice d s).2 = { s with kbReady := k, freeCount := c } := by
  cases d
  · exact ⟨s.kbReady, _, rfl⟩
  · exact ⟨false, s.freeCount, rfl⟩
  all_goals exact ⟨s.kbReady, _, rfl⟩

/-- A write of a device register changes at most IE, the DDR, the console, DSR[15] and MCR[15]. -/
theorem writeDevice_changes (d : DeviceRegister) (v : Word) (s : State) :
    ∃ ie dd co ds ck, writeDevice d v s =
      { s with kbIE := ie, ddr := dd, console := co, dsReady := ds, clockEnable := ck } := by
  cases d with
  | kbsr => exact ⟨_, s.ddr, s.console, s.dsReady, s.clockEnable, rfl⟩
  | kbdr => exact ⟨s.kbIE, s.ddr, s.console, s.dsReady, s.clockEnable, rfl⟩
  | dsr => exact ⟨s.kbIE, s.ddr, s.console, s.dsReady, s.clockEnable, rfl⟩
  | mcr => exact ⟨s.kbIE, s.ddr, s.console, s.dsReady, _, rfl⟩
  | ddr =>
    simp only [writeDevice, writeDdr]
    split
    · exact ⟨s.kbIE, _, _, _, s.clockEnable, rfl⟩
    · exact ⟨s.kbIE, s.ddr, s.console, s.dsReady, s.clockEnable, rfl⟩

/-- The device steps of a boundary change at most the keyboard's and the display's registers. -/
theorem foldl_deviceStep_changes (es : List DeviceStep) (s : State) :
    ∃ k c d, es.foldl deviceStep s = { s with kbReady := k, kbdr := c, dsReady := d } := by
  induction es generalizing s with
  | nil => exact ⟨s.kbReady, s.kbdr, s.dsReady, rfl⟩
  | cons e es ih =>
    obtain ⟨k, c, d, h⟩ := ih (deviceStep s e)
    rw [List.foldl_cons, h]
    cases e
    · exact ⟨k, c, d, rfl⟩
    · exact ⟨k, c, d, rfl⟩

/-- A boundary changes at most the device steps to come and the keyboard's and the display's registers. -/
theorem deviceBoundary_changes (s : State) :
    ∃ k c d l m, deviceBoundary s =
      { s with kbReady := k, kbdr := c, dsReady := d, schedule := l, boundaryCount := m } := by
  obtain ⟨k, c, d, h⟩ := foldl_deviceStep_changes (stepsAt s 0) (passBoundary s)
  exact ⟨k, c, d, _, _, h⟩

/-- The device steps of a boundary neither read nor change memory. -/
theorem foldl_deviceStep_setMem (es : List DeviceStep) (s : State) (m : Memory) :
    es.foldl deviceStep { s with mem := m } = { es.foldl deviceStep s with mem := m } := by
  induction es generalizing s with
  | nil => rfl
  | cons e es ih =>
    rw [List.foldl_cons, List.foldl_cons, ← ih]
    cases e <;> rfl

/-- A boundary neither reads nor changes memory. -/
theorem deviceBoundary_setMem (s : State) (m : Memory) :
    deviceBoundary { s with mem := m } = { deviceBoundary s with mem := m } :=
  foldl_deviceStep_setMem (stepsAt s 0) (passBoundary s) m

/-- After a boundary the one after it is the next. -/
theorem stepsAt_passBoundary (s : State) (n : Nat) : stepsAt (passBoundary s) n = stepsAt s (n + 1) := by
  cases h : s.schedule with
  | nil => simp [stepsAt, passBoundary, stepsAfter, h, Nat.add_right_comm, Nat.add_assoc]
  | cons steps rest => simp [stepsAt, passBoundary, stepsAfter, h]

/-! ## Memory accesses -/

/-- Everything a byte read can do. -/
theorem readByte_value {a : Word} {s t : State} {b : Byte} (h : readByte a s = .value b t) :
    a.toNat < storageEnd ∧ b = Memory.read s.mem a.toNat ∧ t = s := by
  unfold readByte at h
  split at h
  · cases h
  · cases h
    exact ⟨inDeviceRegion_false.mp (eq_false_of_ne_true ‹_›), rfl, rfl⟩

/-- Everything a word read can do: storage, or a device register with its side effects. -/
theorem readWord_value {a : Word} {s t : State} {v : Word} (h : readWord a s = .value v t) :
    isOdd a = false ∧
      ((a.toNat < storageEnd ∧ v = storageWord s.mem a.toNat ∧ t = s) ∨
        ∃ d, inDeviceRegion a = true ∧ deviceAt a = some d ∧ v = (readDevice d s).1 ∧
          t = (readDevice d s).2) := by
  unfold readWord at h
  split at h
  · cases h
  · refine ⟨eq_false_of_ne_true ‹_›, ?_⟩
    split at h
    · split at h
      · cases h
        exact .inr ⟨_, ‹_›, ‹_›, rfl, rfl⟩
      · cases h
    · cases h
      exact .inl ⟨inDeviceRegion_false.mp (eq_false_of_ne_true ‹_›), rfl, rfl⟩

/-- A word read changes at most KBSR[15] and the count of free reads. -/
theorem readWord_changes {a : Word} {s t : State} {v : Word} (h : readWord a s = .value v t) :
    ∃ k c, t = { s with kbReady := k, freeCount := c } := by
  obtain ⟨-, ⟨-, -, rfl⟩ | ⟨d, -, -, -, rfl⟩⟩ := readWord_value h
  · exact ⟨t.kbReady, t.freeCount, rfl⟩
  · exact readDevice_changes d s

/-- A word read of storage. -/
theorem readWord_storage {a : Word} (s : State) (ho : isOdd a = false) (ha : a.toNat < storageEnd) :
    readWord a s = .value (storageWord s.mem a.toNat) s := by
  simp [readWord, ho, inDeviceRegion_false.mpr ha]

/-- A word read of a device register. -/
theorem readWord_device {a : Word} {d : DeviceRegister} (s : State) (ho : isOdd a = false)
    (hr : inDeviceRegion a = true) (hd : deviceAt a = some d) :
    readWord a s = .value (readDevice d s).1 (readDevice d s).2 := by
  simp [readWord, ho, hr, hd]

/-- Everything a byte write can do. -/
theorem writeByte_next {a : Word} {b : Byte} {s t : State} (h : writeByte a b s = .next t) :
    a.toNat < storageEnd ∧ t = storeByte a.toNat b s := by
  unfold writeByte at h
  split at h
  · cases h
  · cases h
    exact ⟨inDeviceRegion_false.mp (eq_false_of_ne_true ‹_›), rfl⟩

/-- Everything a word write can do: storage, or a device register with its side effects. -/
theorem writeWord_next {a v : Word} {s t : State} (h : writeWord a v s = .next t) :
    isOdd a = false ∧
      ((a.toNat < storageEnd ∧ t = storeWord a.toNat v s) ∨
        ∃ d, inDeviceRegion a = true ∧ deviceAt a = some d ∧ t = writeDevice d v s) := by
  unfold writeWord at h
  split at h
  · cases h
  · refine ⟨eq_false_of_ne_true ‹_›, ?_⟩
    split at h
    · split at h
      · cases h
        exact .inr ⟨_, ‹_›, ‹_›, rfl⟩
      · cases h
    · cases h
      exact .inl ⟨inDeviceRegion_false.mp (eq_false_of_ne_true ‹_›), rfl⟩

/-- A word write of storage. -/
theorem writeWord_storage {a : Word} (v : Word) (s : State) (ho : isOdd a = false)
    (ha : a.toNat < storageEnd) : writeWord a v s = .next (storeWord a.toNat v s) := by
  simp [writeWord, ho, inDeviceRegion_false.mpr ha]

/-- A word write of a device register. -/
theorem writeWord_device {a : Word} {d : DeviceRegister} (v : Word) (s : State)
    (ho : isOdd a = false) (hr : inDeviceRegion a = true) (hd : deviceAt a = some d) :
    writeWord a v s = .next (writeDevice d v s) := by
  simp [writeWord, ho, hr, hd]

/-- A word write changes at most memory and the device registers. -/
theorem writeWord_changes {a v : Word} {s t : State} (h : writeWord a v s = .next t) :
    ∃ m ie dd co ds ck, t = { s with mem := m, kbIE := ie, ddr := dd, console := co, dsReady := ds, clockEnable := ck } := by
  obtain ⟨-, ⟨-, rfl⟩ | ⟨d, -, -, rfl⟩⟩ := writeWord_next h
  · exact ⟨_, s.kbIE, s.ddr, s.console, s.dsReady, s.clockEnable, rfl⟩
  · obtain ⟨ie, dd, co, ds, ck, h⟩ := writeDevice_changes d v s
    exact ⟨s.mem, ie, dd, co, ds, ck, h⟩

/-- An even address below xFE00 has its word in storage. -/
theorem even_succ_lt {a : Word} (ho : isOdd a = false) (ha : a.toNat < storageEnd) :
    a.toNat + 1 < storageEnd := by
  simp only [isOdd_eq, decide_eq_false_iff_not, storageEnd] at *
  omega

/-- A word write keeps the canonical form of memory. -/
theorem writeWord_wf {a v : Word} {s t : State} (h : writeWord a v s = .next t)
    (hm : Memory.wf s.mem = true) : Memory.wf t.mem = true := by
  obtain ⟨ho, ⟨ha, rfl⟩ | ⟨d, -, -, rfl⟩⟩ := writeWord_next h
  · exact wf_write _ (even_succ_lt ho ha) (wf_write _ ha hm)
  · obtain ⟨_, _, _, _, _, h⟩ := writeDevice_changes d v s
    rw [h]
    exact hm

/-- The two pushes, when both are in storage. -/
theorem pushPsrAndPc_next {sp psr pc : Word} {s t : State} (h : pushPsrAndPc sp psr pc s = .next t) :
    ∃ s', writeWord (sp - 2) psr s = .next s' ∧ writeWord (sp - 4) pc s' = .next t :=
  andThenNext_next h

/-! ## Jumps -/

/-- Everything a checked jump can do (R134). -/
theorem jumpTo_next {t : Word} {s s' : State} (h : jumpTo t s = .next s') :
    isOdd t = false ∧ s' = { s with pc := t } := by
  unfold jumpTo at h
  split at h
  · cases h
  · cases h
    exact ⟨eq_false_of_ne_true ‹_›, rfl⟩

/-- Everything a linking jump can do (R137, R160). -/
theorem linkAndJumpTo_next {t : Word} {s s' : State} (h : linkAndJumpTo t s = .next s') :
    isOdd t = false ∧ s' = { s.setReg .r7 s.pc with pc := t } := by
  unfold linkAndJumpTo at h
  split at h
  · cases h
  · cases h
    exact ⟨eq_false_of_ne_true ‹_›, rfl⟩

/-! ## Interrupt and return -/

/-- Everything interrupt initiation can do when it answers a next state (R186). -/
theorem initiateInterrupt_next {s t : State} (h : initiateInterrupt s = .next t) :
    isOdd s.ssp = false ∧
      ∃ s2, isOdd (storageWord s.mem 0x280) = false ∧
        pushPsrAndPc s.ssp (psrWord s) s.pc { s with priv := .supervisor } = .next s2 ∧
        t = { s2 with ssp := s.ssp - 4, pc := storageWord s.mem 0x280 } := by
  unfold initiateInterrupt at h
  split at h
  · cases h
  · refine ⟨eq_false_of_ne_true ‹_›, ?_⟩
    rw [readWord_storage s (by decide) (by decide)] at h
    simp only [andThen_value] at h
    split at h
    · cases h
    · obtain ⟨s2, h2, h3⟩ := andThenNext_next h
      cases h3
      exact ⟨s2, eq_false_of_ne_true ‹_›, h2, rfl⟩

/-- Everything the return from an interrupt can do when it answers a next state (R163). -/
theorem returnFromInterrupt_next {s t : State} (h : returnFromInterrupt s = .next t) :
    s.priv = .supervisor ∧ isOdd s.ssp = false ∧
      ∃ npc s1 temp s2, readWord s.ssp s = .value npc s1 ∧ isOdd npc = false ∧
        readWord (s.ssp + 2) s1 = .value temp s2 ∧
        t = loadPsr temp { s2 with pc := npc, ssp := s.ssp + 4 } := by
  unfold returnFromInterrupt at h
  split at h
  · cases h
  · split at h
    · cases h
    · obtain ⟨npc, s1, h1, h⟩ := andThen_next h
      split at h
      · cases h
      · obtain ⟨temp, s2, h2, h⟩ := andThen_next h
        cases h
        exact ⟨‹_›, eq_false_of_ne_true ‹_›, npc, s1, temp, s2, h1, eq_false_of_ne_true ‹_›, h2, rfl⟩

end Sys2Proof.Machine
end

