-- ==== Sys2Proof/Laws/Frames.lean ====
section
/-! SUPPORT. What the updates the instructions are made of leave unchanged, and the unsigned value of a word
in storage. -/

namespace Sys2Proof.Machine

/-! ## Frames -/

@[simp] theorem sameDevices_refl (s : State) : SameDevices s s := by
  simp [SameDevices, SameKeyboard, SameDisplay, SameStreams]

/-- A write of the PC alone. -/
theorem writesOnlyPcAnd_pc (s : State) (x : Word) : WritesOnlyPcAnd [] s { s with pc := x } := by
  simp [WritesOnlyPcAnd, SameRegsExcept, SameCodes, SameStorageExcept, SameDevices, SameKeyboard,
    SameDisplay, SameStreams]

/-- The link and the jump: R7 reads the link. -/
theorem link_reg_r7 (s : State) (v x : Word) : ({ s.setReg .r7 v with pc := x } : State).reg .r7 = v := rfl

/-- The link and the jump: the other registers are unchanged. -/
theorem link_reg_other (s : State) (v x : Word) {r : Reg} (h : r ≠ .r7) :
    ({ s.setReg .r7 v with pc := x } : State).reg r = s.reg r := by
  rw [← reg_setReg_other s .r7 v h]
  exact reg_pc _ _ _

/-- A write of R7 and the PC. -/
theorem writesOnlyPcAnd_link (s : State) (v x : Word) :
    WritesOnlyPcAnd [.r7] s { s.setReg .r7 v with pc := x } :=
  ⟨⟨fun _ h => link_reg_other s v x (by simpa using h), rfl⟩, ⟨rfl, rfl, rfl⟩, rfl, fun _ _ => rfl,
    sameDevices_refl s⟩

/-- A byte stored in storage. -/
theorem writesOnlyStorage_byte (s : State) (a : Nat) (b : Byte) :
    WritesOnlyStorage [a] s (storeByte a b s) :=
  ⟨⟨fun _ _ => storeByte_reg .., rfl⟩, ⟨rfl, rfl, rfl⟩, rfl, rfl,
    fun _ h => read_write_other _ _ (by simpa using h), sameDevices_refl s⟩

/-- A word stored in storage. -/
theorem writesOnlyStorage_word (s : State) (a : Nat) (v : Word) :
    WritesOnlyStorage [a, a + 1] s (storeWord a v s) := by
  refine ⟨⟨fun _ _ => storeWord_reg .., rfl⟩, ⟨rfl, rfl, rfl⟩, rfl, rfl, fun x h => ?_, sameDevices_refl s⟩
  simp only [List.mem_cons, List.not_mem_nil, or_false, not_or] at h
  rw [storeWord_mem, read_write_other _ _ h.2, read_write_other _ _ h.1]

/-- The bytes of a word stored in storage (R59). -/
theorem read_storeWord_low (s : State) (a : Nat) (v : Word) :
    Memory.read (storeWord a v s).mem a = lowByte v := by
  rw [storeWord_mem, read_write_other _ _ (by omega), read_write_same]

theorem read_storeWord_high (s : State) (a : Nat) (v : Word) :
    Memory.read (storeWord a v s).mem (a + 1) = highByte v := by
  rw [storeWord_mem, read_write_same]

/-- A word stored in storage is read back (R68). -/
theorem storageWord_storeWord (s : State) (a : Nat) (v : Word) :
    storageWord (storeWord a v s).mem a = v := by
  rw [storageWord, read_storeWord_low, read_storeWord_high, wordOfBytes_bytes]

/-! ## Unsigned values -/

/-- The value of a word made of two bytes (R52). -/
theorem toNat_wordOfBytes (lo hi : Byte) : (wordOfBytes lo hi).toNat = lo.toNat + 256 * hi.toNat := by
  have h1 := lo.isLt
  have h2 := hi.isLt
  have h3 : hi.toNat <<< 8 % 65536 = hi.toNat * 256 := by rw [Nat.shiftLeft_eq]; omega
  have h4 : lo.toNat % 65536 = lo.toNat := by omega
  have h5 : hi.toNat % 65536 = hi.toNat := by omega
  have h6 := Nat.two_pow_add_eq_or_of_lt (i := 8) h1 hi.toNat
  simp only [wordOfBytes, field, BitVec.toNat_or, BitVec.toNat_shiftLeft, BitVec.toNat_setWidth,
    Nat.shiftLeft_zero, Nat.reducePow, h4, h5, h3] at h6 ⊢
  rw [Nat.mul_comm, ← h6]
  omega

/-- The value of the word at an address of storage. -/
theorem toNat_storageWord (s : State) (a : Nat) : (storageWord s.mem a).toNat = wordAt s a :=
  toNat_wordOfBytes ..

end Sys2Proof.Machine
end

