-- ==== Sys2Proof/Laws/PerInstr.lean ====
section
/-! SUPPORT. Laws said one instruction at a time: the family `TableRow`. -/

namespace Sys2Proof.Laws.TableRow

/-- The "mask" and the "match" of the instruction's row of spec/opcode_table.json. -/
def row : Instr → Word × Word
  | .addReg _ _ _ => (0xF038, 0x1000)
  | .addImm _ _ _ => (0xF020, 0x1020)
  | .andReg _ _ _ => (0xF038, 0x5000)
  | .andImm _ _ _ => (0xF020, 0x5020)
  | .br _ _ _ _ => (0xF000, 0x0000)
  | .jmp _ => (0xFE3F, 0xC000)
  | .ret => (0xFFFF, 0xC1C0)
  | .jsr _ => (0xF800, 0x4800)
  | .jsrr _ => (0xFE3F, 0x4000)
  | .ldb _ _ _ => (0xF000, 0x2000)
  | .ldw _ _ _ => (0xF000, 0x6000)
  | .lea _ _ => (0xF000, 0xE000)
  | .xorReg _ _ _ => (0xF038, 0x9000)
  | .xorImm _ _ _ => (0xF020, 0x9020)
  | .notReg _ _ => (0xF03F, 0x903F)
  | .rti => (0xFFFF, 0x8000)
  | .lshf _ _ _ => (0xF030, 0xD000)
  | .lshfAlt _ _ _ => (0xF030, 0xD020)
  | .rshfl _ _ _ => (0xF030, 0xD010)
  | .rshfa _ _ _ => (0xF030, 0xD030)
  | .stb _ _ _ => (0xF000, 0x3000)
  | .stw _ _ _ => (0xF000, 0x7000)
  | .trap _ => (0xFF00, 0xF000)
  | .reserved1010 _ => (0xF000, 0xA000)
  | .reserved1011 _ => (0xF000, 0xB000)

/-- The encoder gives an instruction a word of its own row: the word has the row's fixed bits. -/
def Statement (i : Instr) : Prop := encode i &&& (row i).1 = (row i).2

/-- The bits of a word under a mask, from the word's bits. -/
theorem of_bits {w m v : Word} (h : ∀ k : Fin 16, (w.getLsbD k && m.getLsbD k) = v.getLsbD k) :
    w &&& m = v := by
  apply BitVec.eq_of_getLsbD_eq
  intro k hk
  simpa using h ⟨k, hk⟩

theorem addReg (dr : Reg) (sr1 : Reg) (sr2 : Reg) : Statement (.addReg dr sr1 sr2) :=
  of_bits fun k => by fin_cases k <;> simp [encode, row, field]
theorem addImm (dr : Reg) (sr1 : Reg) (imm5 : BitVec 5) : Statement (.addImm dr sr1 imm5) :=
  of_bits fun k => by fin_cases k <;> simp [encode, row, field]
theorem andReg (dr : Reg) (sr1 : Reg) (sr2 : Reg) : Statement (.andReg dr sr1 sr2) :=
  of_bits fun k => by fin_cases k <;> simp [encode, row, field]
theorem andImm (dr : Reg) (sr1 : Reg) (imm5 : BitVec 5) : Statement (.andImm dr sr1 imm5) :=
  of_bits fun k => by fin_cases k <;> simp [encode, row, field]
theorem br (n : Bool) (z : Bool) (p : Bool) (off : BitVec 9) : Statement (.br n z p off) :=
  of_bits fun k => by fin_cases k <;> simp [encode, row, field, flagAt]
theorem jmp (b : Reg) : Statement (.jmp b) :=
  of_bits fun k => by fin_cases k <;> simp [encode, row, field]
theorem ret : Statement (.ret) :=
  of_bits fun k => by fin_cases k <;> simp [encode, row, field]
theorem jsr (off : BitVec 11) : Statement (.jsr off) :=
  of_bits fun k => by fin_cases k <;> simp [encode, row, field]
theorem jsrr (b : Reg) : Statement (.jsrr b) :=
  of_bits fun k => by fin_cases k <;> simp [encode, row, field]
theorem ldb (dr : Reg) (b : Reg) (off : BitVec 6) : Statement (.ldb dr b off) :=
  of_bits fun k => by fin_cases k <;> simp [encode, row, field]
theorem ldw (dr : Reg) (b : Reg) (off : BitVec 6) : Statement (.ldw dr b off) :=
  of_bits fun k => by fin_cases k <;> simp [encode, row, field]
theorem lea (dr : Reg) (off : BitVec 9) : Statement (.lea dr off) :=
  of_bits fun k => by fin_cases k <;> simp [encode, row, field]
theorem xorReg (dr : Reg) (sr1 : Reg) (sr2 : Reg) : Statement (.xorReg dr sr1 sr2) :=
  of_bits fun k => by fin_cases k <;> simp [encode, row, field]
theorem xorImm (dr : Reg) (sr1 : Reg) (imm5 : BitVec 5) : Statement (.xorImm dr sr1 imm5) :=
  of_bits fun k => by fin_cases k <;> simp [encode, row, field]
theorem notReg (dr : Reg) (sr : Reg) : Statement (.notReg dr sr) :=
  of_bits fun k => by fin_cases k <;> simp [encode, row, field]
theorem rti : Statement (.rti) :=
  of_bits fun k => by fin_cases k <;> simp [encode, row, field]
theorem lshf (dr : Reg) (sr : Reg) (k : BitVec 4) : Statement (.lshf dr sr k) :=
  of_bits fun k => by fin_cases k <;> simp [encode, row, field]
theorem lshfAlt (dr : Reg) (sr : Reg) (k : BitVec 4) : Statement (.lshfAlt dr sr k) :=
  of_bits fun k => by fin_cases k <;> simp [encode, row, field]
theorem rshfl (dr : Reg) (sr : Reg) (k : BitVec 4) : Statement (.rshfl dr sr k) :=
  of_bits fun k => by fin_cases k <;> simp [encode, row, field]
theorem rshfa (dr : Reg) (sr : Reg) (k : BitVec 4) : Statement (.rshfa dr sr k) :=
  of_bits fun k => by fin_cases k <;> simp [encode, row, field]
theorem stb (sr : Reg) (b : Reg) (off : BitVec 6) : Statement (.stb sr b off) :=
  of_bits fun k => by fin_cases k <;> simp [encode, row, field]
theorem stw (sr : Reg) (b : Reg) (off : BitVec 6) : Statement (.stw sr b off) :=
  of_bits fun k => by fin_cases k <;> simp [encode, row, field]
theorem trap (v : BitVec 8) : Statement (.trap v) :=
  of_bits fun k => by fin_cases k <;> simp [encode, row, field]
theorem reserved1010 (low : BitVec 12) : Statement (.reserved1010 low) :=
  of_bits fun k => by fin_cases k <;> simp [encode, row, field]
theorem reserved1011 (low : BitVec 12) : Statement (.reserved1011 low) :=
  of_bits fun k => by fin_cases k <;> simp [encode, row, field]

end Sys2Proof.Laws.TableRow
end

