-- ==== Sys2Proof/Laws/Step.lean ====
section
/-! SUPPORT. What one step can do: the cases of `step`, which every proof about a step takes instead of
unfolding it. -/

namespace Sys2Proof.Machine

/-- A fetch of a next instruction reads the word in storage at an even PC and changes nothing. -/
theorem fetchWord_value {a : Word} {s t : State} {w : Word} (h : fetchWord a s = .value w t) :
    isOdd a = false ∧ a.toNat < storageEnd ∧ w = storageWord s.mem a.toNat ∧ t = s := by
  unfold fetchWord at h
  split at h
  · cases h
  · obtain ⟨ho, ⟨ha, hw, ht⟩ | ⟨d, hr, -⟩⟩ := readWord_value h
    · exact ⟨ho, ha, hw, ht⟩
    · exact absurd hr ‹_›

/-- A fetch at an even PC in storage. -/
theorem fetchWord_storage {a : Word} (s : State) (ho : isOdd a = false) (ha : a.toNat < storageEnd) :
    fetchWord a s = .value (storageWord s.mem a.toNat) s := by
  simp [fetchWord, inDeviceRegion_false.mpr ha, readWord_storage s ho ha]

/-- An instruction cycle that answers a next state executed the instruction decoded at the PC. -/
theorem instructionCycle_next {s t : State} (h : instructionCycle s = .next t) :
    isOdd s.pc = false ∧ s.pc.toNat < storageEnd ∧
      ∃ i, decodeWord (storageWord s.mem s.pc.toNat) = .instr i ∧ exec i (incrementPc s) = .next t := by
  obtain ⟨w, s', hf, h⟩ := andThen_next h
  obtain ⟨ho, ha, rfl, rfl⟩ := fetchWord_value hf
  refine ⟨ho, ha, ?_⟩
  cases hd : decodeWord (storageWord s'.mem s'.pc.toNat) with
  | instr i => exact ⟨i, rfl, by simpa [hd, execDecoded] using h⟩
  | reservedEncoding w => rw [hd] at h; cases h

/-- The three things a step that answers a next state can be: the halted machine staying as it is, an
interrupt initiation, an instruction. -/
theorem step_next {s t : State} (h : step s = .next t) :
    (s.clockEnable = false ∧ t = s) ∨
    (s.clockEnable = true ∧ interruptTaken (deviceBoundary s) = true ∧
      initiateInterrupt (deviceBoundary s) = .next t) ∨
    (s.clockEnable = true ∧ interruptTaken (deviceBoundary s) = false ∧
      instructionCycle (deviceBoundary s) = .next t) := by
  unfold step machineStep at h
  split at h
  · unfold boundaryThenCycle at h
    split at h
    · exact .inr (.inl ⟨‹_›, ‹_›, h⟩)
    · exact .inr (.inr ⟨‹_›, eq_false_of_ne_true ‹_›, h⟩)
  · cases h
    exact .inl ⟨eq_false_of_ne_true ‹_›, rfl⟩

end Sys2Proof.Machine
end

