-- ==== Sys2Proof/Laws/Stops.lean ====
section
/-! SUPPORT. For each shared operation, once, everything it can do when it stops: which faults it raises,
and which it never raises. -/

namespace Sys2Proof.Machine

/-- A read gone on with raises only what the continuation raises. -/
theorem andThen_fault {α : Type} {r : ReadResult α} {f : α → State → Result} {e : Fault}
    (h : r.andThen f = .fault e) : ∃ v s, r = .value v s ∧ f v s = .fault e := by
  cases r with
  | value v s => exact ⟨v, s, rfl, h⟩
  | refused e => cases h

/-- A read gone on with is refused where the read is, or where the continuation is. -/
theorem andThen_refused_iff {α : Type} {r : ReadResult α} {f : α → State → Result} {e : Refusal} :
    r.andThen f = .refused e ↔ r = .refused e ∨ ∃ v s, r = .value v s ∧ f v s = .refused e := by
  cases r with
  | value v s => simp [ReadResult.andThen]
  | refused e' => simp [ReadResult.andThen]

/-- An outcome gone on from raises where it does itself, or where the continuation does. -/
theorem andThenNext_fault {o : Result} {f : State → Result} {e : Fault}
    (h : andThenNext o f = .fault e) : o = .fault e ∨ ∃ s, o = .next s ∧ f s = .fault e := by
  cases o with
  | next s => exact .inr ⟨s, rfl, h⟩
  | fault e' => exact .inl h
  | refused e' => cases h

/-- An outcome gone on from is refused where it is itself, or where the continuation is. -/
theorem andThenNext_refused {o : Result} {f : State → Result} {e : Refusal}
    (h : andThenNext o f = .refused e) : o = .refused e ∨ ∃ s, o = .next s ∧ f s = .refused e := by
  cases o with
  | next s => exact .inr ⟨s, rfl, h⟩
  | fault e' => cases h
  | refused e' => exact .inl h

/-- A memory access raises no exception (R57, R59). -/
theorem writeWord_ne_fault (a v : Word) (s : State) (e : Fault) : writeWord a v s ≠ .fault e := by
  unfold writeWord
  repeat' split
  all_goals simp

theorem writeByte_ne_fault (a : Word) (b : Byte) (s : State) (e : Fault) :
    writeByte a b s ≠ .fault e := by
  unfold writeByte
  split <;> simp

/-- What a refused word read is refused for. -/
theorem readWord_refused {a : Word} {s : State} {e : Refusal} (h : readWord a s = .refused e) :
    (isOdd a = true ∧ e = .unalignedWordAccess a) ∨
      (isOdd a = false ∧ inDeviceRegion a = true ∧ deviceAt a = none ∧
        e = .unassignedDeviceAddress a) := by
  unfold readWord at h
  split at h
  · cases h
    exact .inl ⟨‹_›, rfl⟩
  · split at h
    · split at h
      · cases h
      · cases h
        exact .inr ⟨eq_false_of_ne_true ‹_›, ‹_›, ‹_›, rfl⟩
    · cases h

/-- What a refused word write is refused for. -/
theorem writeWord_refused {a v : Word} {s : State} {e : Refusal} (h : writeWord a v s = .refused e) :
    (isOdd a = true ∧ e = .unalignedWordAccess a) ∨
      (isOdd a = false ∧ inDeviceRegion a = true ∧ deviceAt a = none ∧
        e = .unassignedDeviceAddress a) := by
  unfold writeWord at h
  split at h
  · cases h
    exact .inl ⟨‹_›, rfl⟩
  · split at h
    · split at h
      · cases h
      · cases h
        exact .inr ⟨eq_false_of_ne_true ‹_›, ‹_›, ‹_›, rfl⟩
    · cases h

/-- What a refused byte read is refused for. -/
theorem readByte_refused {a : Word} {s : State} {e : Refusal} (h : readByte a s = .refused e) :
    e = .deviceByteAccess a := by
  unfold readByte at h
  split at h
  · cases h
    rfl
  · cases h

/-- What a refused byte write is refused for. -/
theorem writeByte_refused {a : Word} {b : Byte} {s : State} {e : Refusal}
    (h : writeByte a b s = .refused e) : e = .deviceByteAccess a := by
  unfold writeByte at h
  split at h
  · cases h
    rfl
  · cases h

/-- What a checked jump raises. -/
theorem jumpTo_fault {t : Word} {s : State} {e : Fault} (h : jumpTo t s = .fault e) :
    isOdd t = true ∧ e = .illegalOperandAddress t (s.pc - 2) := by
  unfold jumpTo at h
  split at h
  · cases h
    exact ⟨‹_›, rfl⟩
  · cases h

/-- What a linking jump raises. -/
theorem linkAndJumpTo_fault {t : Word} {s : State} {e : Fault} (h : linkAndJumpTo t s = .fault e) :
    isOdd t = true ∧ e = .illegalOperandAddress t (s.pc - 2) := by
  unfold linkAndJumpTo at h
  split at h
  · cases h
    exact ⟨‹_›, rfl⟩
  · cases h

theorem jumpTo_ne_refused (t : Word) (s : State) (e : Refusal) : jumpTo t s ≠ .refused e := by
  unfold jumpTo
  split <;> simp [raiseAtInstr, raise]

theorem linkAndJumpTo_ne_refused (t : Word) (s : State) (e : Refusal) :
    linkAndJumpTo t s ≠ .refused e := by
  unfold linkAndJumpTo
  split <;> simp [raiseAtInstr, raise]

/-- What the return from an interrupt raises (R163). -/
theorem returnFromInterrupt_fault {s : State} {e : Fault} (h : returnFromInterrupt s = .fault e) :
    (s.priv = .user ∧ e = .privilegeModeViolation (s.pc - 2)) ∨
      (s.priv = .supervisor ∧ ∃ v, isOdd v = true ∧ e = .illegalOperandAddress v (s.pc - 2) ∧
        (v = s.ssp ∨ ∃ s1, readWord s.ssp s = .value v s1)) := by
  unfold returnFromInterrupt at h
  split at h
  · cases h
    exact .inl ⟨‹_›, rfl⟩
  · refine .inr ⟨‹_›, ?_⟩
    split at h
    · cases h
      exact ⟨s.ssp, ‹_›, rfl, .inl rfl⟩
    · obtain ⟨npc, s1, h1, h⟩ := andThen_fault h
      split at h
      · cases h
        exact ⟨npc, ‹_›, rfl, .inr ⟨s1, h1⟩⟩
      · obtain ⟨temp, s2, -, h⟩ := andThen_fault h
        cases h

/-- The return from an interrupt, where both words are read and the popped PC is even. -/
theorem returnFromInterrupt_run {s s1 s2 : State} {npc temp : Word} (hp : s.priv = .supervisor)
    (ho : isOdd s.ssp = false) (h1 : readWord s.ssp s = .value npc s1) (hn : isOdd npc = false)
    (h2 : readWord (s.ssp + 2) s1 = .value temp s2) :
    returnFromInterrupt s = .next (loadPsr temp { s2 with pc := npc, ssp := s.ssp + 4 }) := by
  unfold returnFromInterrupt
  rw [hp]
  simp only [ho, h1, andThen_value, hn, h2, Bool.false_eq_true, if_false]

/-- Interrupt initiation, where the stack pointer and the vector are even and both pushes land. -/
theorem initiateInterrupt_run {s s1 s2 : State} (ho : isOdd s.ssp = false)
    (hv : isOdd (storageWord s.mem 0x280) = false)
    (h1 : writeWord (s.ssp - 2) (psrWord s) { s with priv := .supervisor } = .next s1)
    (h2 : writeWord (s.ssp - 4) s.pc s1 = .next s2) :
    initiateInterrupt s = .next { s2 with ssp := s.ssp - 4, pc := storageWord s.mem 0x280 } := by
  unfold initiateInterrupt
  rw [readWord_storage s (by decide) (by decide)]
  simp only [ho, andThen_value, Bool.false_eq_true, if_false]
  have hv' : isOdd (storageWord s.mem (interruptVectorAddress keyboardIntv).toNat) = false := hv
  rw [hv']
  simp only [pushPsrAndPc, h1, h2, andThenNext_of_next, Bool.false_eq_true, if_false]
  rfl

end Sys2Proof.Machine
end

