-- ==== Sys2Proof/Machine/TrapRoutines.lean ====
section
/-! DEFINITION. What the five trap service routines of Table A.2 promise (spec/43_system.md R166 to R172), what the
keyboard service routine does (spec/70_reset_and_hazards.md R215), and what software has in place before a TRAP
and before the interrupt (R215). The routines are software in memory: no step of the machine uses this file. A
contract is about the runs of `step` from a state `s` at the routine's first instruction; `CallMeets` and
`InterruptMeets` tie it to the code at the table entry of the vector. Log entry 29. -/

namespace Sys2Proof.Machine

/-- The vectors of Table A.2 (R166); x24 is not assigned. -/
def vectorGetc : BitVec 8 := 0x20
def vectorOut : BitVec 8 := 0x21
def vectorPuts : BitVec 8 := 0x22
def vectorIn : BitVec 8 := 0x23
def vectorHalt : BitVec 8 := 0x25

/-! ## The run of a routine -/

/-- The next boundary takes the keyboard interrupt. A character struck then may be consumed by the service
routine, and the source does not say how that is arranged (R172): a contract speaks of the run up to there. -/
def Interrupted (s : State) : Prop := s.clockEnable = true ∧ interruptTaken (deviceBoundary s) = true

/-- A step of a routine: one instruction of a running machine. There is none where the routine is at its end, in
the halted state, where the interrupt is taken and where the machine stops. -/
def routineStep (atEnd : State → Bool) (s : State) : Option State :=
  if atEnd s then none
  else if s.clockEnable && !interruptTaken (deviceBoundary s) then
    match step s with
    | .next t => some t
    | .fault _ => none
    | .refused _ => none
  else none

/-- The state after `k` steps of a routine. -/
def routineRun (atEnd : State → Bool) : Nat → State → Option State
  | 0, s => some s
  | k + 1, s => (routineStep atEnd s).bind (routineRun atEnd k)

/-- The next instruction is RTI, with which a service routine ends (R190). -/
def atRti (u : State) : Bool := decide (decodeWord (storageWord u.mem u.pc.toNat) = .instr .rti)

/-- Where a routine is at any time: at its finish, at an interrupt, or before an instruction of its own that
completes and is no RTI (R172). -/
def RunsUntil (atEnd : State → Bool) (Finish : State → Prop) (s : State) : Prop :=
  ∀ k u, routineRun atEnd k s = some u → Finish u ∨ Interrupted u ∨
    (atEnd u = false ∧ u.clockEnable = true ∧ (∃ v, step u = .next v) ∧ atRti u = false)

/-- The PC is at the return address, which R7 holds at the first instruction `s` of a trap service routine
(R166). -/
def atReturn (s u : State) : Bool := decide (u.pc = s.reg .r7)

/-- The state after `k` steps of the trap service routine at whose first instruction `s` is. -/
def After (k : Nat) (s u : State) : Prop := routineRun (atReturn s) k s = some u

/-- After `k` steps the routine returns: the PC reaches the return address, for the first time (R166). -/
def Returns (k : Nat) (s t : State) : Prop := After k s t ∧ t.pc = s.reg .r7

/-- The finish of a routine that returns: at its caller, in the caller's mode (R166, R172). -/
def Returned (s u : State) : Prop := u.pc = s.reg .r7 ∧ u.priv = s.priv

/-! ## What a routine does to the devices -/

/-- An act of a routine: a character taken from the keyboard, a character displayed. -/
inductive Act where
  | take (c : Byte)
  | display (c : Byte)
  deriving DecidableEq, Repr

/-- The acts of the step from `u` to `v`. A character is taken by a read of KBDR[7:0] while KBSR[15] = 1, which
clears the ready bit: only a read of the KBDR clears it (R167, spec/60_exceptions.md R196, R197). -/
def actsOfStep (u v : State) : List Act :=
  (if (deviceBoundary u).kbReady && !v.kbReady then [.take (deviceBoundary u).kbdr] else []) ++
    (v.console.drop u.console.length).map .display

/-- The acts of the first `k` steps of a routine, in their order. -/
def actsOfRun (atEnd : State → Bool) : Nat → State → List Act
  | 0, _ => []
  | k + 1, s =>
    match routineStep atEnd s with
    | some t => actsOfStep s t ++ actsOfRun atEnd k t
    | none => []

/-- The acts of the first `k` steps of the trap service routine at whose first instruction `s` is. -/
def acts (k : Nat) (s : State) : List Act := actsOfRun (atReturn s) k s

/-- The keyboard has a character or is yet to get one (R167). -/
def KeyComes (s : State) : Prop := s.kbReady = true ∨ ∃ n c, DeviceStep.key c ∈ stepsAt s n

/-- The display is ready or is yet to become so (R168). -/
def DisplayComes (s : State) : Prop := s.dsReady = true ∨ ∃ n, DeviceStep.ready ∈ stepsAt s n

/-- What the next act waits for is there or is yet to come; a routine with no act left waits for nothing. -/
def NextActComes (left : List Act) (s : State) : Prop :=
  match left with
  | [] => True
  | .take _ :: _ => KeyComes s
  | .display _ :: _ => DisplayComes s

/-- After `k` steps the routine gets on: to its finish or to one more act, if no interrupt is taken before. -/
def GetsOn (Finish : State → Prop) (k : Nat) (s : State) : Prop :=
  ∃ i v, k ≤ i ∧ After i s v ∧ (Finish v ∨ Interrupted v ∨ (acts k s).length < (acts i s).length)

/-- The routine does the acts of a script, in their order and no other, where `c` is the character that comes
from the keyboard. Wherever it is, it waits only for what its next act needs: once that comes it gets on, and
with no act left it gets to its finish, which it never reaches before. -/
def FollowsScript (script : Byte → List Act) (Finish : State → Prop) (s : State) : Prop :=
  ∀ k u, After k s u → ∃ c left, script c = acts k s ++ left ∧ (Finish u → left = []) ∧
    (NextActComes left u → GetsOn Finish k s)

/-- A routine that does the acts of a script and finishes. -/
def Performs (script : Byte → List Act) (Finish : State → Prop) (s : State) : Prop :=
  RunsUntil (atReturn s) Finish s ∧ FollowsScript script Finish s

/-- A routine that does the acts of a script, a character taken among them, and returns with that character in
R0, the high eight bits 0. -/
def PerformsAndGives (script : Byte → List Act) (s : State) : Prop :=
  Performs script (Returned s) s ∧
    ∀ k t, Returns k s t → ∃ c, acts k s = script c ∧ t.reg .r0 = zext16 c

/-! ## The contracts -/

/-- GETC: it waits for a character, takes it and returns with it in R0; nothing is displayed. With no key it
never returns, as a return takes a character (R167). -/
def GetcContract (s : State) : Prop := PerformsAndGives (fun c => [.take c]) s

/-- OUT: it waits for the display, and R0[7:0] is displayed (R168). -/
def OutContract (s : State) : Prop :=
  Performs (fun _ => [.display (lowByte (s.reg .r0))]) (Returned s) s

/-- The bytes from an address up to the first x00, which is not one of them (R169). -/
def IsStringAt (m : Memory) (a : Nat) (chars : List Byte) : Prop :=
  a + chars.length < storageEnd ∧ Memory.read m (a + chars.length) = 0 ∧
    ∀ k, (h : k < chars.length) → Memory.read m (a + k) = chars[k] ∧ chars[k] ≠ 0

/-- The bytes from an address up to the device region (R169). -/
def bytesToDevices (m : Memory) (a : Nat) : List Byte :=
  (List.range' a (storageEnd - a)).map (Memory.read m)

/-- The finish of PUTS where no x00 is met: its byte read of the device region is refused (R169, R60). -/
def RefusedPastStorage (s u : State) : Prop :=
  u.clockEnable = true ∧
    step u = .refused (.deviceByteAccess (BitVec.ofNat 16 (max (s.reg .r0).toNat storageEnd)))

/-- PUTS: the string at R0, one character a byte, is displayed without its terminator, each character as OUT
displays it. Where no x00 is met before the device region every byte up to there is displayed, and it does not
return: its byte read there is refused (R169). -/
def PutsContract (s : State) : Prop :=
  (∀ chars, IsStringAt s.mem (s.reg .r0).toNat chars →
    Performs (fun _ => chars.map .display) (Returned s) s) ∧
  (0 ∉ bytesToDevices s.mem (s.reg .r0).toNat →
    Performs (fun _ => (bytesToDevices s.mem (s.reg .r0).toNat).map .display) (RefusedPastStorage s) s ∧
      ∀ k t, ¬ Returns k s t)

/-- IN: a prompt is displayed, a text of at least one character that the source does not give; then it does as
GETC; then the character taken is displayed (R170). -/
def InContract (prompt : List Byte) (s : State) : Prop :=
  prompt ≠ [] ∧ PerformsAndGives (fun c => prompt.map .display ++ [.take c, .display c]) s

/-- HALT: a message is displayed, a text of at least one character that the source does not give; then the
halted state; it does not return (R171). -/
def HaltContract (message : List Byte) (s : State) : Prop :=
  message ≠ [] ∧ Performs (fun _ => message.map .display) State.halted s ∧ ∀ k t, ¬ Returns k s t

/-! ## The table entries -/

/-- A TRAP of the vector performed in `s` enters code that meets the contract (R160, R166). -/
def CallMeets (trapvect8 : BitVec 8) (Contract : State → Prop) (s : State) : Prop :=
  ∃ t, exec (.trap trapvect8) s = .next t ∧ Contract t

/-- The table entry of each of the five vectors holds the address of code that meets its contract, for a
TRAP performed in `s` (R166). -/
def TrapRoutinesMeet (prompt message : List Byte) (s : State) : Prop :=
  CallMeets vectorGetc GetcContract s ∧ CallMeets vectorOut OutContract s ∧
    CallMeets vectorPuts PutsContract s ∧ CallMeets vectorIn (InContract prompt) s ∧
    CallMeets vectorHalt (HaltContract message) s

/-- The memory `m` holds the trap service routines, as part of `MemImage` (R166): whatever a running machine
has elsewhere and whenever its devices act, the bytes of `m` at the addresses `own` (table entries and code)
make a TRAP performed outside them meet its contract. The prompt and the message are the routines' own. `Calls` is what the routines ask
of a call beyond that, of which the source says nothing (a string that lies outside a routine's save area). -/
def HoldsTrapRoutines (m : Memory) (own : List Nat) (Calls : State → Prop) : Prop :=
  ∃ prompt message, ∀ s, (∀ a ∈ own, Memory.read s.mem a = Memory.read m a) →
    s.clockEnable = true → isOdd s.pc = false → s.pc.toNat ∉ own → Calls s → TrapRoutinesMeet prompt message s

/-! ## The keyboard service routine -/

/-- `x` is the interrupted process `p` resumed: its PC, mode, N, Z, P, both stack pointers and every general
register are as they were at the interrupt (R189, R190). -/
def Resumes (p x : State) : Prop :=
  x.pc = p.pc ∧ x.priv = p.priv ∧ SameCodes p x ∧ SameRegsExcept [] p x

/-- The finish of the service routine: before an RTI that resumes the interrupted process (R190). -/
def ServiceDone (p u : State) : Prop :=
  atRti u = true ∧ u.clockEnable = true ∧ ∃ x, step u = .next x ∧ Resumes p x

/-- The keyboard service routine, at whose first instruction `s` is, for the interrupted process `p`: it saves the
registers it uses, so that the process finds them as they were, it reads the KBDR, which takes the character
and ends the request, and it ends in RTI (R215 part 3b, R189, R190). -/
def KeyboardServiceContract (p s : State) : Prop :=
  RunsUntil atRti (ServiceDone p) s ∧
    ∃ k u, routineRun atRti k s = some u ∧ ServiceDone p u ∧ ∃ c, Act.take c ∈ actsOfRun atRti k s

/-- Interrupt initiation in `p` enters code that meets the contract (R186). -/
def InterruptMeets (p : State) : Prop :=
  ∃ s, initiateInterrupt p = .next s ∧ KeyboardServiceContract p s

/-- The SSP is even with four bytes of storage below it (R215 part 3a). -/
def SupervisorStackReady (s : State) : Prop :=
  isOdd s.ssp = false ∧ 4 ≤ s.ssp.toNat ∧ s.ssp.toNat ≤ storageEnd

/-- The memory `m` holds the keyboard service routine (R215 part 3b): whatever process the interrupt is taken in,
with a supervisor stack that is ready, the bytes of `m` at the addresses `own` (table entry and code) make the
interrupt meet its contract. `Calls` is what the routine asks beyond that, of which the source says nothing (how
far below the SSP the storage is free, that the stack lies outside `own`, a display that becomes ready). -/
def HoldsKeyboardService (m : Memory) (own : List Nat) (Calls : State → Prop) : Prop :=
  ∀ p, (∀ a ∈ own, Memory.read p.mem a = Memory.read m a) → p.clockEnable = true → isOdd p.pc = false →
    interruptTaken p = true → SupervisorStackReady p → Calls p → InterruptMeets p

/-! ## The boot requirements -/

/-- Before a TRAP: its table entry holds an even address (R215 part 2). -/
def ReadyForTrap (trapvect8 : BitVec 8) (s : State) : Prop :=
  isOdd (storageWord s.mem (trapVectorAddress trapvect8).toNat) = false

/-- Before the interrupt is enabled: the supervisor stack is ready, and the keyboard's table entry holds the even
address of a service routine (R215 part 3). -/
def ReadyForInterrupt (own : List Nat) (Calls : State → Prop) (s : State) : Prop :=
  SupervisorStackReady s ∧ isOdd (storageWord s.mem (interruptVectorAddress keyboardIntv).toNat) = false ∧
    HoldsKeyboardService s.mem own Calls

end Sys2Proof.Machine
end

