-- ==== Sys2Proof/Laws/TrapRoutines.lean ====
section
/-! SUPPORT. A routine that takes a character needs a key: with none struck, GETC and IN never return
(spec/43_system.md R167, R170). -/

namespace Sys2Proof.Machine

/-! ## What an instruction does to the keyboard -/

/-- From `s` to `t` no device acts, and a character can only be taken from the keyboard. -/
def OnlyTakesKeys (s t : State) : Prop :=
  t.schedule = s.schedule ∧ t.boundaryCount = s.boundaryCount ∧ (t.kbReady = true → s.kbReady = true)

theorem OnlyTakesKeys.trans {s t u : State} (h : OnlyTakesKeys s t) (h' : OnlyTakesKeys t u) :
    OnlyTakesKeys s u :=
  ⟨h'.1.trans h.1, h'.2.1.trans h.2.1, fun hr => h.2.2 (h'.2.2 hr)⟩

theorem onlyTakesKeys_writeDr (r : Reg) (v : Word) (s : State) : OnlyTakesKeys s (writeDr r v s) := by
  simp [OnlyTakesKeys, writeDr]

theorem onlyTakesKeys_readWord {a : Word} {s t : State} {v : Word} (h : readWord a s = .value v t) :
    OnlyTakesKeys s t := by
  obtain ⟨-, ⟨-, -, rfl⟩ | ⟨d, -, -, -, rfl⟩⟩ := readWord_value h
  · exact ⟨rfl, rfl, id⟩
  · cases d <;> simp [OnlyTakesKeys, readDevice, countFreeRead]

theorem onlyTakesKeys_writeWord {a v : Word} {s t : State} (h : writeWord a v s = .next t) :
    OnlyTakesKeys s t := by
  obtain ⟨_, _, _, _, _, _, rfl⟩ := writeWord_changes h
  exact ⟨rfl, rfl, id⟩

theorem onlyTakesKeys_jumpTo {x : Word} {s t : State} (h : jumpTo x s = .next t) : OnlyTakesKeys s t := by
  obtain ⟨-, rfl⟩ := jumpTo_next h
  exact ⟨rfl, rfl, id⟩

theorem onlyTakesKeys_linkAndJumpTo {x : Word} {s t : State} (h : linkAndJumpTo x s = .next t) :
    OnlyTakesKeys s t := by
  obtain ⟨-, rfl⟩ := linkAndJumpTo_next h
  simp [OnlyTakesKeys]

theorem onlyTakesKeys_returnFromInterrupt {s t : State} (h : returnFromInterrupt s = .next t) :
    OnlyTakesKeys s t := by
  obtain ⟨-, -, npc, s1, temp, s2, h1, -, h2, rfl⟩ := returnFromInterrupt_next h
  obtain ⟨hs, hb, hr⟩ := (onlyTakesKeys_readWord h1).trans (onlyTakesKeys_readWord h2)
  exact ⟨hs, hb, hr⟩

/-- No instruction strikes a key. -/
theorem onlyTakesKeys_exec {i : Instr} {s t : State} (h : exec i s = .next t) : OnlyTakesKeys s t := by
  cases i with
  | br n z p off =>
    simp only [exec, execBr] at h
    split at h <;> cases h <;> exact ⟨rfl, rfl, id⟩
  | jmp b => exact onlyTakesKeys_jumpTo h
  | ret => exact onlyTakesKeys_jumpTo h
  | jsr off => cases h; simp [OnlyTakesKeys]
  | jsrr b => exact onlyTakesKeys_linkAndJumpTo h
  | ldb dr b off =>
    obtain ⟨v, s', h1, h2⟩ := andThen_next h
    obtain ⟨-, -, rfl⟩ := readByte_value h1
    cases h2
    exact onlyTakesKeys_writeDr ..
  | ldw dr b off =>
    simp only [exec, execLdw] at h
    split at h
    · cases h
    · obtain ⟨v, s', h1, h⟩ := andThen_next h
      cases h; exact (onlyTakesKeys_readWord h1).trans (onlyTakesKeys_writeDr ..)
  | stb sr b off =>
    obtain ⟨-, rfl⟩ := writeByte_next h
    exact ⟨rfl, rfl, id⟩
  | stw sr b off =>
    simp only [exec, execStw] at h
    split at h
    · cases h
    · exact onlyTakesKeys_writeWord h
  | trap v =>
    obtain ⟨w, s', h1, h⟩ := andThen_next h
    exact (onlyTakesKeys_readWord h1).trans (onlyTakesKeys_linkAndJumpTo h)
  | rti => exact onlyTakesKeys_returnFromInterrupt h
  | reserved1010 low => cases h
  | reserved1011 low => cases h
  | _ => cases h; exact onlyTakesKeys_writeDr ..

/-! ## With no key struck, none is taken -/

/-- Steps that strike no key leave KBSR[15] as it was. -/
theorem foldl_deviceStep_kbReady {es : List DeviceStep} (h : ∀ c, DeviceStep.key c ∉ es) (s : State) :
    (es.foldl deviceStep s).kbReady = s.kbReady := by
  induction es generalizing s with
  | nil => rfl
  | cons e es ih =>
    rw [List.foldl_cons, ih fun c hc => h c (List.mem_cons_of_mem _ hc)]
    cases e with
    | key c => exact absurd List.mem_cons_self (h c)
    | ready => rfl

/-- The steps to come after a boundary. -/
theorem stepsAt_deviceBoundary (s : State) (n : Nat) : stepsAt (deviceBoundary s) n = stepsAt s (n + 1) := by
  obtain ⟨k, c, d, h⟩ := foldl_deviceStep_changes (stepsAt s 0) (passBoundary s)
  rw [← stepsAt_passBoundary, deviceBoundary, h]
  rfl

/-- No key at a boundary with none to come. -/
theorem not_keyComes_deviceBoundary {s : State} (h : ¬ KeyComes s) : ¬ KeyComes (deviceBoundary s) := by
  rintro (hk | ⟨n, c, hc⟩)
  · rw [deviceBoundary, foldl_deviceStep_kbReady fun c hc => h (.inr ⟨0, c, hc⟩)] at hk
    exact h (.inl hk)
  · exact h (.inr ⟨n + 1, c, stepsAt_deviceBoundary s n ▸ hc⟩)

theorem OnlyTakesKeys.not_keyComes {s t : State} (h : OnlyTakesKeys s t) (hs : ¬ KeyComes s) : ¬ KeyComes t := by
  rintro (hk | ⟨n, c, hc⟩)
  · exact hs (.inl (h.2.2 hk))
  · exact hs (.inr ⟨n, c, by simpa only [stepsAt, h.1, h.2.1] using hc⟩)

/-- What a step of a routine is: the instruction at the PC, after the boundary. -/
theorem routineStep_some {atEnd : State → Bool} {s t : State} (h : routineStep atEnd s = some t) :
    atEnd s = false ∧ s.clockEnable = true ∧ interruptTaken (deviceBoundary s) = false ∧ step s = .next t := by
  unfold routineStep at h
  split at h
  · cases h
  · split at h
    · rename_i hc
      simp only [Bool.and_eq_true, Bool.not_eq_true'] at hc
      split at h <;> cases h
      exact ⟨eq_false_of_ne_true ‹_›, hc.1, hc.2, ‹_›⟩
    · cases h

/-- A routine at its end takes no more steps. -/
theorem routineStep_at_end {atEnd : State → Bool} {s : State} (h : atEnd s = true) :
    routineStep atEnd s = none := by
  simp [routineStep, h]

theorem routineStep_not_keyComes {atEnd : State → Bool} {s t : State} (h : routineStep atEnd s = some t)
    (hs : ¬ KeyComes s) : ¬ KeyComes t := by
  obtain ⟨-, hc, hi, hn⟩ := routineStep_some h
  obtain ⟨hf, -⟩ | ⟨-, ht, -⟩ | ⟨-, -, hn⟩ := step_next hn
  · rw [hf] at hc; cases hc
  · rw [hi] at ht; cases ht
  · obtain ⟨-, -, i, -, he⟩ := instructionCycle_next hn
    exact (onlyTakesKeys_exec he).not_keyComes (not_keyComes_deviceBoundary hs)

/-- Where no key comes, no character is taken. -/
theorem take_not_mem_actsOfRun {atEnd : State → Bool} {k : Nat} {s : State} (hs : ¬ KeyComes s) (c : Byte) :
    Act.take c ∉ actsOfRun atEnd k s := by
  induction k generalizing s with
  | zero => exact List.not_mem_nil
  | succ k ih =>
    unfold actsOfRun
    split
    · have hr : (deviceBoundary s).kbReady = false :=
        eq_false_of_ne_true fun hr => not_keyComes_deviceBoundary hs (.inl hr)
      have := ih (routineStep_not_keyComes ‹_› hs)
      simp only [actsOfStep, hr, Bool.false_and, Bool.false_eq_true, if_false, List.nil_append, List.mem_append,
        this, or_false]
      exact fun h => by simpa using List.mem_map.mp h
    · exact List.not_mem_nil

/-- A routine that returns a character is given one. -/
theorem PerformsAndGives.keyComes {script : Byte → List Act} {s t : State} {k : Nat}
    (h : PerformsAndGives script s) (hr : Returns k s t) (hc : ∀ c, Act.take c ∈ script c) : KeyComes s := by
  obtain ⟨c, ha, -⟩ := h.2 k t hr
  exact Classical.byContradiction fun hs => take_not_mem_actsOfRun hs c (ha ▸ hc c)

/-- "If no key is ever struck the routine never returns" (R167). -/
theorem getc_never_returns {s : State} (h : GetcContract s) (hk : ¬ KeyComes s) (k : Nat) (t : State) :
    ¬ Returns k s t := fun hr => hk (h.keyComes hr fun _ => List.mem_singleton.mpr rfl)

/-- IN waits for a key as GETC does (R170). -/
theorem in_never_returns {prompt : List Byte} {s : State} (h : InContract prompt s) (hk : ¬ KeyComes s)
    (k : Nat) (t : State) : ¬ Returns k s t := fun hr => hk (h.2.keyComes hr fun _ => by simp)

end Sys2Proof.Machine
end

