-- ==== Sys2Proof/Tests/Slice0.lean ====
section
/-! SUPPORT. Small tests of the model, with expected values taken from spec/95_test_vectors.md (E, V and K
numbers), and for each statement with hypotheses a witness that meets them. -/

namespace Sys2Proof.Tests

open Sys2Proof Sys2Proof.Machine

/-! ## Helpers -/

/-- A state in user mode at x3000. -/
def user : State := { State.reset with priv := .user }

/-- A state in supervisor mode at x0400 with the supervisor stack pointer of V112. -/
def super : State := { State.reset with pc := 0x0400, ssp := 0x2FFC, usp := 0xFDF0, n := true, z := false }

/-- The boundary of V123: a pending keyboard request in user mode. -/
def requested : State :=
  { user with pc := 0x3006, z := false, p := true, ssp := 0x3000, usp := 0xFDF0, kbReady := true
              kbIE := true, kbdr := 0x41, mem := [(0x281, 0x10)] }

/-- The state after a step, if there is one. -/
def nextOf : Result → Option State
  | .next t => some t
  | .fault _ => none
  | .refused _ => none

def faultOf : Result → Option Fault
  | .next _ => none
  | .fault e => some e
  | .refused _ => none

def refusalOf : Result → Option Refusal
  | .next _ => none
  | .fault _ => none
  | .refused e => some e

/-- One step with a word placed at the PC. -/
def run (s : State) (w : Nat) : Result := step (s.withFetchWord 16 w)

/-- The condition codes N Z P. -/
def nzp (t : State) : Bool × Bool × Bool := (t.n, t.z, t.p)

/-! ## Well-formedness: the checks refuse the ill-formed terms -/

theorem test_wellFormed_refuses_xorImm_of_ones : (Instr.xorImm .r1 .r2 0b11111).wellFormed = false := by decide
theorem test_wellFormed_refuses_jmp_r7 : (Instr.jmp .r7).wellFormed = false := by decide

/-! ## Decoding: words written out from the formats of spec/30_encoding.md R82 -/

theorem test_decode_add :
    decodeWord 0b0001_010_011_0_00_100 = .instr (.addReg .r2 .r3 .r4) ∧
    decodeWord 0b0001_010_011_1_00111 = .instr (.addImm .r2 .r3 7) ∧
    decodeWord 0b0001_010_011_0_01_100 = .reservedEncoding 0x14CC := by decide

theorem test_decode_and :
    decodeWord 0b0101_010_011_0_00_100 = .instr (.andReg .r2 .r3 .r4) ∧
    decodeWord 0b0101_001_001_1_10000 = .instr (.andImm .r1 .r1 (-16)) ∧
    decodeWord 0b0101_010_011_0_10_100 = .reservedEncoding 0x54D4 := by decide

theorem test_decode_xor :
    decodeWord 0b1001_011_001_0_00_010 = .instr (.xorReg .r3 .r1 .r2) ∧
    decodeWord 0b1001_011_001_1_01100 = .instr (.xorImm .r3 .r1 12) ∧
    decodeWord 0b1001_100_010_1_11111 = .instr (.notReg .r4 .r2) ∧
    decodeWord 0b1001_011_011_0_11_010 = .reservedEncoding 0x96DA := by decide

theorem test_decode_shifts :
    decodeWord 0b1101_010_011_0_0_0011 = .instr (.lshf .r2 .r3 3) ∧
    decodeWord 0b1101_010_011_1_0_0011 = .instr (.lshfAlt .r2 .r3 3) ∧
    decodeWord 0b1101_010_011_0_1_0111 = .instr (.rshfl .r2 .r3 7) ∧
    decodeWord 0b1101_010_011_1_1_1111 = .instr (.rshfa .r2 .r3 15) := by decide

theorem test_decode_control :
    decodeWord 0b0000_011_111111101 = .instr (.br false true true (-3)) ∧
    decodeWord 0b0000_100_000000101 = .instr (.br true false false 5) ∧
    decodeWord 0b1100_000_010_000000 = .instr (.jmp .r2) ∧
    decodeWord 0b1100_000_111_000000 = .instr .ret ∧
    decodeWord 0b0100_1_00000010000 = .instr (.jsr 16) ∧
    decodeWord 0b0100_0_00_011_000000 = .instr (.jsrr .r3) := by decide

theorem test_decode_control_fixed_bits :
    decodeWord 0b1100_000_010_000001 = .reservedEncoding 0xC081 ∧
    decodeWord 0b1100_001_010_000000 = .reservedEncoding 0xC280 ∧
    decodeWord 0b0100_0_01_011_000000 = .reservedEncoding 0x42C0 ∧
    decodeWord 0b0100_0_00_011_000001 = .reservedEncoding 0x40C1 := by decide

theorem test_decode_data_movement :
    decodeWord 0b0010_100_010_001010 = .instr (.ldb .r4 .r2 10) ∧
    decodeWord 0b0110_100_010_100000 = .instr (.ldw .r4 .r2 (-32)) ∧
    decodeWord 0b1110_100_000100000 = .instr (.lea .r4 32) ∧
    decodeWord 0b0011_100_010_001010 = .instr (.stb .r4 .r2 10) ∧
    decodeWord 0b0111_110_111_111111 = .instr (.stw .r6 .r7 (-1)) := by decide

theorem test_decode_system :
    decodeWord 0b1111_0000_00100011 = .instr (.trap 0x23) ∧
    decodeWord 0b1111_0001_00100101 = .reservedEncoding 0xF125 ∧
    decodeWord 0b1000_000000000000 = .instr .rti ∧
    decodeWord 0b1000_000000000001 = .reservedEncoding 0x8001 ∧
    decodeWord 0b1010_000100100011 = .instr (.reserved1010 0x123) ∧
    decodeWord 0b1011_111111111111 = .instr (.reserved1011 0xFFF) := by decide

/-- R52, R80: an instruction is two bytes, the low byte first. -/
theorem test_decode_bytes :
    decodeBytes [0xC4, 0x14, 0x99] = .word (.instr (.addReg .r2 .r3 .r4)) [0x99] ∧
    decodeBytes [0xC4] = .truncated ∧ decodeBytes [] = .truncated := by decide

/-! ## One step: vectors of spec/95_test_vectors.md -/

theorem test_addReg_V2 : (nextOf (run { user with r1 := 0xFFFF, r2 := 1 } 0x1042)).map
    (fun t => (t.r0, t.pc, nzp t)) = some (0x0000, 0x3002, false, true, false) := by decide

theorem test_addReg_V3 : (nextOf (run { user with r1 := 0x4000 } 0x1241)).map
    (fun t => (t.r1, nzp t)) = some (0x8000, true, false, false) := by decide

theorem test_addImm_V7 : (nextOf (run { user with ssp := 0x3000, usp := 0xFDF0 } 0x1DBE)).map
    (fun t => (t.ssp, t.usp, nzp t)) = some (0x3000, 0xFDEE, true, false, false) := by decide

theorem test_addImm_V8 :
    (nextOf (run { user with priv := .supervisor, ssp := 0x3000, usp := 0xFDF0 } 0x1DBE)).map
    (fun t => (t.ssp, t.usp, nzp t)) = some (0x2FFE, 0xFDF0, false, false, true) := by decide

theorem test_andReg_E13 : (nextOf (run { user with r3 := 0xF0F0, r4 := 0x8FF1 } 0x54C4)).map
    (fun t => (t.r2, nzp t)) = some (0x80F0, true, false, false) := by decide

theorem test_andImm_V10 : (nextOf (run { user with r1 := 0xABCD } 0x5270)).map
    (fun t => (t.r1, nzp t)) = some (0xABC0, true, false, false) := by decide

theorem test_xorReg_E32 : (nextOf (run { user with r1 := 0xFF00, r2 := 0x0FF0 } 0x9642)).map
    (fun t => (t.r3, nzp t)) = some (0xF0F0, true, false, false) := by decide

theorem test_xorImm_V14 : (nextOf (run { user with r1 := 0x00FF } 0x9270)).map
    (fun t => (t.r1, nzp t)) = some (0xFF0F, true, false, false) := by decide

theorem test_not_V17 : (nextOf (run { user with r1 := 0x7FFF } 0x927F)).map
    (fun t => (t.r1, nzp t)) = some (0x8000, true, false, false) := by decide

theorem test_lshf_V19 : (nextOf (run { user with r3 := 0x0003 } 0xD4CF)).map
    (fun t => (t.r2, nzp t)) = some (0x8000, true, false, false) := by decide

theorem test_lshfAlt_V22 : (nextOf (run { user with r3 := 0x1234 } 0xD4E3)).map
    (fun t => (t.r2, nzp t)) = some (0x91A0, true, false, false) := by decide

theorem test_rshfl_V25 : (nextOf (run { user with r3 := 0x8000 } 0xD4DF)).map
    (fun t => (t.r2, nzp t)) = some (0x0001, false, false, true) := by decide

theorem test_rshfa_V29 : (nextOf (run { user with r3 := 0x7FFF } 0xD4FF)).map
    (fun t => (t.r2, nzp t)) = some (0x0000, false, true, false) := by decide

theorem test_rshfa_V31 : (nextOf (run { user with r3 := 0xF00F } 0xD6F4)).map
    (fun t => (t.r3, nzp t)) = some (0xFF00, true, false, false) := by decide

theorem test_reserved_encoding_V33 :
    faultOf (run user 0x14CC) = some (.reservedEncoding 0x14CC 0x3000) := by decide

theorem test_br_V43 : (nextOf (run { user with n := false, z := true, p := true } 0x0205)).map
    (fun t => (t.pc, nzp t)) = some (0x300C, false, true, true) := by decide

theorem test_br_V38 : (nextOf (run { user with n := true, z := true, p := true } 0x0005)).map
    (fun t => (t.pc, nzp t)) = some (0x3002, true, true, true) := by decide

theorem test_jmp_V50 : (nextOf (run { user with ssp := 0x2000, usp := 0x4000 } 0xC180)).map
    (fun t => t.pc) = some 0x4000 := by decide

theorem test_jmp_V49 : faultOf (run { user with r3 := 0xFDFF } 0xC0C0) =
    some (.illegalOperandAddress 0xFDFF 0x3000) := by decide

theorem test_ret_V53 : (nextOf (run { user with r7 := 0x3010 } 0xC1C0)).map
    (fun t => (t.pc, t.r7)) = some (0x3010, 0x3010) := by decide

theorem test_jsr_V57 : (nextOf (run user 0x4C00)).map (fun t => (t.pc, t.r7)) = some (0x2802, 0x3002) := by decide

theorem test_jsrr_V59 : (nextOf (run { user with r3 := 0x5000, r7 := 0x1234 } 0x40C0)).map
    (fun t => (t.pc, t.r7)) = some (0x5000, 0x3002) := by decide

theorem test_jsrr_V61 : (nextOf (run { user with r7 := 0x5000 } 0x41C0)).map
    (fun t => (t.pc, t.r7)) = some (0x3002, 0x3002) := by decide

theorem test_ldb_V69 : (nextOf (run { user with r1 := 0xFFFF, mem := [(0, 0x12)] } 0x2241)).map
    (fun t => (t.r1, nzp t)) = some (0x0012, false, false, true) := by decide

theorem test_ldb_V71 : refusalOf (run { user with r1 := 0xFDFF } 0x2441) =
    some (.deviceByteAccess 0xFE00) := by decide

theorem test_ldw_V75 :
    (nextOf (run { user with r1 := 0x4000, mem := [(0x403E, 0xFF), (0x403F, 0x7F)] } 0x645F)).map
    (fun t => (t.r2, nzp t)) = some (0x7FFF, false, false, true) := by decide

theorem test_ldw_V80 :
    (nextOf (run { user with r1 := 0xFE00, kbReady := true, kbdr := 0x41 } 0x6441)).map
    (fun t => (t.r2, t.kbReady, nzp t)) = some (0x0041, false, false, false, true) := by decide

theorem test_lea_V103 : (nextOf (run user 0xE100)).map (fun t => (t.r0, nzp t)) =
    some (0x2E02, false, false, true) := by decide

theorem test_stb_V87 :
    (nextOf (run { user with r1 := 0x4000, r2 := 0xABCD, mem := [(0x4000, 0x11), (0x4001, 0x22)] } 0x3441)).map
    (fun t => (Memory.read t.mem 0x4000, Memory.read t.mem 0x4001)) = some (0x11, 0xCD) := by decide

theorem test_stb_V89 : refusalOf (run { user with r1 := 0xFE03, r2 := 0x0041 } 0x3443) =
    some (.deviceByteAccess 0xFE06) := by decide

theorem test_stw_V100 : (nextOf (run { user with r0 := 0x3000 } 0x7000)).map
    (fun t => (Memory.read t.mem 0x3000, Memory.read t.mem 0x3001)) = some (0x00, 0x30) := by decide

theorem test_stw_V97 : (nextOf (run { user with r2 := 0x7FFF } 0x747F)).map
    (fun t => (t.clockEnable, t.pc)) = some (false, 0x3002) := by decide

theorem test_stw_V94 :
    (nextOf (run { user with r1 := 0xFE00, r2 := 0xBFFF, kbReady := true, kbIE := true, kbdr := 0x41
                             priv := .supervisor } 0x7440)).map
    (fun t => (t.kbIE, t.kbReady, t.kbdr)) = some (false, true, 0x41) := by decide

theorem test_stw_V95 : (nextOf (run { user with r1 := 0xFE00, r2 := 0x1248, dsReady := true } 0x7443)).map
    (fun t => (t.dsReady, t.console)) = some (false, [0x48]) := by decide

theorem test_trap_V109 : (nextOf (run { user with mem := [(0x1FE, 0xFE), (0x1FF, 0xFD)] } 0xF0FF)).map
    (fun t => (t.pc, t.r7, t.priv)) = some (0xFDFE, 0x3002, .user) := by decide

theorem test_trap_V110 : faultOf (run { user with r7 := 0x1111, mem := [(0x4A, 0x21), (0x4B, 0x05)] } 0xF025) =
    some (.illegalOperandAddress 0x0521 0x3000) := by decide

theorem test_rti_V114 :
    (nextOf (run { super with mem := [(0x2FFC, 0x04), (0x2FFD, 0x30), (0x2FFE, 0xF8), (0x2FFF, 0xFF)] } 0x8000)).map
    (fun t => (t.pc, t.priv, nzp t, t.ssp, t.usp)) =
      some (0x3004, .user, (false, false, false), 0x3000, 0xFDF0) := by decide

theorem test_rti_V118 :
    faultOf (run { super with mem := [(0x2FFC, 0x05), (0x2FFD, 0x30), (0x2FFE, 0x02), (0x2FFF, 0x80)] } 0x8000) =
      some (.illegalOperandAddress 0x3005 0x0400) := by decide

theorem test_rti_V116 : faultOf (run user 0x8000) = some (.privilegeModeViolation 0x3000) := by decide

theorem test_reserved1010_V122 : faultOf (run { super with pc := 0x3000 } 0xA123) =
    some (.reservedOpcode 0xA123 0x3000) := by decide

theorem test_reserved1011_V121 : faultOf (run user 0xBFFF) = some (.reservedOpcode 0xBFFF 0x3000) := by decide

/-- V123, the worked example of R188. -/
theorem test_interrupt_V123 : (nextOf (step requested)).map
    (fun t => (t.pc, t.priv, nzp t, t.ssp, t.usp)) =
      some (0x1000, .supervisor, (false, false, true), 0x2FFC, 0xFDF0) := by decide

theorem test_interrupt_V123_stack : (nextOf (step requested)).map (fun t => t.mem) =
    some [(0x281, 0x10), (0x2FFC, 0x06), (0x2FFD, 0x30), (0x2FFE, 0x01), (0x2FFF, 0x80)] := by decide

theorem test_interrupt_V128 : faultOf (step { requested with ssp := 0x3001 }) =
    some (.illegalOperandAddress 0x3001 0x3006) := by decide

/-- K2 and K5: a second key overwrites the first, and at the same boundary the interrupt is taken. -/
theorem test_keys_K2_K5 :
    (nextOf (step { requested with kbReady := false, schedule := [[.key 0x41, .key 0x42], [.ready]] })).map
    (fun t => (t.pc, t.kbdr, t.kbReady, t.schedule)) = some (0x1000, 0x42, true, [[.ready]]) := by decide

/-- V79: the defined bits of the KBSR as read; the others are free. -/
theorem test_kbsr_V79 : (readDevice .kbsr { user with kbReady := true, kbIE := true }).1.getLsbD 15 = true ∧
    (readDevice .kbsr { user with kbReady := true, kbIE := true }).1.getLsbD 14 = true := by
  simp [readDevice, flagAt, field]

/-! ## The layout of a placed word -/

theorem test_placed_word_is_little_endian : (user.withFetchWord 16 0x14C4).mem = [(0x3000, 0xC4), (0x3001, 0x14)] := by
  decide

theorem test_decodeTableWord : decodeTableWord 16 0xF025 = some (.trap 0x25) ∧ decodeTableWord 16 0x8001 = none := by
  decide

/-! ## Assembler forms and trap routines -/

/-- E19, E23, E15, and the ends of PCoffset9's range (R108). -/
theorem test_labelOffset : labelOffset 11 0x3022 0x3000 = some 0x10 ∧ labelOffset 9 0x3042 0x3000 = some 0x20 ∧
    labelOffset 9 0x3002 0x3006 = some (-3) ∧ labelOffset 9 0x2E02 0x3000 = some (-256) ∧
    labelOffset 9 0x2E00 0x3000 = none ∧ labelOffset 9 0x3202 0x3000 = none := by decide

/-- E15, E22, E31. -/
theorem test_assembly : (Instr.br false true true (-3)).assembly 0x3006 = some "BRzp x3002" ∧
    (Instr.ldw .r4 .r2 10).assembly 0 = some "LDW R4, R2, #10" ∧
    (Instr.trap 0x23).assembly 0 = some "TRAP x23" ∧ trapName 0x23 = some "IN" := by decide

/-- R215 part 3a: the state of V123. -/
theorem test_supervisorStackReady : SupervisorStackReady requested := by unfold SupervisorStackReady; decide

/-- Before a TRAP x20 or x25, whose table entries hold x1000, in a state with a character waiting and R1 at the KBDR; the
code at x1000 is `w`, then RET. -/
def calling (w : Nat) : State :=
  ({ user with pc := 0x3002, r1 := 0xFE02, kbReady := true, kbdr := 0x41, schedule := [[], []]
               mem := [(0x41, 0x10), (0x4B, 0x10), (0x1002, 0xC0), (0x1003, 0xC1)] } : State) |> storeWord 0x1000 (BitVec.ofNat 16 w)

/-- The runs of a routine of two instructions. -/
theorem after_two {atEnd : State → Bool} {s a b u : State} {k : Nat} (ha : routineStep atEnd s = some a)
    (hb : routineStep atEnd a = some b) (hr : atEnd b = true) (h : routineRun atEnd k s = some u) :
    (k = 0 ∧ u = s) ∨ (k = 1 ∧ u = a) ∨ (k = 2 ∧ u = b) := by
  match k with
  | 0 => cases h; exact .inl ⟨rfl, rfl⟩
  | 1 => simp only [routineRun, ha] at h; cases h; exact .inr (.inl ⟨rfl, rfl⟩)
  | 2 => simp only [routineRun, ha, hb, Option.bind] at h; cases h; exact .inr (.inr ⟨rfl, rfl⟩)
  | k + 3 => simp [routineRun, ha, hb, routineStep_at_end hr] at h

/-- LDW R0, R1, #0 then RET meets the contract of GETC when a character waits and R1 is at the KBDR (R166, R167). -/
theorem test_getcContract_met : CallMeets vectorGetc GetcContract (calling 0x6040) := by
  refine ⟨_, rfl, ⟨?_, ?_⟩, ?_⟩
  · rintro k u h
    obtain ⟨-, rfl⟩ | ⟨-, rfl⟩ | ⟨-, rfl⟩ := after_two rfl rfl rfl h
    · exact .inr (.inr ⟨by decide, rfl, ⟨_, rfl⟩, by decide⟩)
    · exact .inr (.inr ⟨by decide, rfl, ⟨_, rfl⟩, by decide⟩)
    · exact .inl ⟨rfl, rfl⟩
  · rintro k u h
    obtain ⟨rfl, rfl⟩ | ⟨rfl, rfl⟩ | ⟨rfl, rfl⟩ := after_two rfl rfl rfl h
    · exact ⟨0x41, [.take 0x41], rfl, fun hf => absurd hf.1 (by decide),
        fun _ => ⟨2, _, by decide, rfl, .inl ⟨rfl, rfl⟩⟩⟩
    · exact ⟨0x41, [], rfl, fun _ => rfl, fun _ => ⟨2, _, by decide, rfl, .inl ⟨rfl, rfl⟩⟩⟩
    · exact ⟨0x41, [], rfl, fun _ => rfl, fun _ => ⟨2, _, le_rfl, rfl, .inl ⟨rfl, rfl⟩⟩⟩
  · rintro k t ⟨h, hr⟩
    obtain ⟨-, rfl⟩ | ⟨-, rfl⟩ | ⟨rfl, rfl⟩ := after_two rfl rfl rfl h
    · exact absurd hr (by decide)
    · exact absurd hr (by decide)
    · exact ⟨0x41, rfl, rfl⟩

/-- RET alone does not: it takes no character (R167). -/
theorem test_getcContract_needs_a_character : ¬ CallMeets vectorGetc GetcContract (calling 0xC1C0) := by
  rintro ⟨t, ht, -, h⟩
  cases ht
  obtain ⟨c, hc, -⟩ := h 1 _ ⟨rfl, rfl⟩
  cases hc

/-- A HALT routine that stores x0000 to the MCR at once halts, but does not meet the contract: it displays no
message (R171). -/
theorem test_haltContract_needs_a_message (message : List Byte) :
    ¬ CallMeets vectorHalt (HaltContract message) { calling 0x7040 with r1 := 0xFFFE } := by
  rintro ⟨t, ht, hm, ⟨-, h⟩, -⟩
  cases ht
  obtain ⟨c, left, hs, hf, -⟩ := h 1 _ rfl
  rw [hf rfl] at hs
  exact hm (List.map_eq_nil_iff.mp hs)

/-- The boundary of V123 with R0 = 0 and R1 at the KBDR; the service routine at x1000 is `w`, AND R0, R0, #0, RTI. -/
def interrupted (w : Nat) : State :=
  storeWord 0x1000 (BitVec.ofNat 16 w)
    { requested with r1 := 0xFE02, schedule := [[], [], []]
                     mem := [(0x281, 0x10), (0x1002, 0x20), (0x1003, 0x50), (0x1005, 0x80)] }

/-- LDW R0, R1, #0; AND R0, R0, #0; RTI resumes a process whose R0 is 0, with the character taken (R215, R190). -/
theorem test_keyboardServiceContract_met : InterruptMeets (interrupted 0x6040) := by
  refine ⟨_, rfl, fun k u h => ?_, 2, _, rfl,
    ⟨rfl, rfl, _, rfl, rfl, rfl, ⟨rfl, rfl, rfl⟩, fun r _ => by cases r <;> rfl, rfl⟩, 0x41, by decide⟩
  obtain ⟨-, rfl⟩ | ⟨-, rfl⟩ | ⟨-, rfl⟩ := after_two rfl rfl rfl h
  · exact .inr (.inr ⟨rfl, rfl, ⟨_, rfl⟩, rfl⟩)
  · exact .inr (.inr ⟨rfl, rfl, ⟨_, rfl⟩, rfl⟩)
  · exact .inl ⟨rfl, rfl, _, rfl, rfl, rfl, ⟨rfl, rfl, rfl⟩, fun r _ => by cases r <;> rfl, rfl⟩

/-- A routine that does not read the KBDR does not meet the contract: ADD R0, R0, #0 in its place (R215). -/
theorem test_keyboardServiceContract_needs_a_read : ¬ InterruptMeets (interrupted 0x1020) := by
  rintro ⟨s, hs, -, k, u, h, -, c, hc⟩
  cases hs
  obtain ⟨rfl, -⟩ | ⟨rfl, -⟩ | ⟨rfl, -⟩ := after_two rfl rfl rfl h <;> exact absurd hc (by decide +revert)

/-! ## Witnesses: a state and operands for the hypotheses of each statement, clause by clause -/

theorem witness_DecodeOfEncodeIsTheInstruction :
    (Instr.xorImm .r7 .r7 0b11110).wellFormed = true ∧ (Instr.jmp .r6).wellFormed = true ∧
    (Instr.br true true true 0x1FF).wellFormed = true := by decide

theorem witness_EncodeOfDecodeIsTheWord :
    decodeWord 0x0000 = .instr (.br false false false 0) ∧ decodeWord 0xF0FF = .instr (.trap 0xFF) := by decide

theorem witness_ReservedEncodingsAreTheFixedBitMismatches :
    decodeWord 0x1008 = .reservedEncoding 0x1008 ∧ decodeWord 0x9FDF = .reservedEncoding 0x9FDF ∧
    decodeWord 0xC001 = .reservedEncoding 0xC001 ∧ decodeWord 0xC200 = .reservedEncoding 0xC200 ∧
    decodeWord 0x4001 = .reservedEncoding 0x4001 ∧ decodeWord 0x4200 = .reservedEncoding 0x4200 ∧
    decodeWord 0x8FFF = .reservedEncoding 0x8FFF ∧ decodeWord 0xF100 = .reservedEncoding 0xF100 := by decide

theorem witness_ReservedOpcodesFault :
    (0xA000 ≤ (0xA000 : Word).toNat ∧ (0xAFFF : Word).toNat ≤ 0xAFFF) ∧
    (0xB000 ≤ (0xB000 : Word).toNat ∧ (0xBFFF : Word).toNat ≤ 0xBFFF) := by decide

theorem witness_SextAndZextFormulas :
    ((1 ≤ 1 ∧ 1 ≤ 16) ∧ (1#1).getLsbD (1 - 1) = true) ∧ ((1 ≤ 16 ∧ 16 ≤ 16) ∧ (0x7FFF#16).getLsbD (16 - 1) = false) := by
  decide

theorem witness_LshfAndRshfFormulas : (0 ≤ 15 ∧ 15 ≤ 15) ∧ lshf 0xFFFF 15 = 0x8000 ∧ rshf 0x8000 15 true = 0xFFFF := by
  decide

theorem witness_SetccFollowsTheSign :
    destination (.lea .r0 0x100) = some .r0 ∧ ∃ t, exec (.lea .r0 0x100) user = .next t := ⟨rfl, _, rfl⟩

theorem witness_OtherInstructionsKeepTheCodes :
    destination (.jsr 0) = none ∧ Instr.jsr 0 ≠ .rti ∧ ∃ t, exec (.jsr 0) user = .next t :=
  ⟨rfl, by decide, _, rfl⟩

theorem witness_OnlyBrReadsTheCodes :
    (∀ n z p f, Instr.rti ≠ .br n z p f) ∧ (destination (.lea .r0 0)).isSome = true :=
  ⟨by simp, rfl⟩

theorem witness_RegisterSixIsBanked : super.priv = .supervisor ∧ user.priv = .user := by decide

theorem witness_HiddenStackPointerIsUnreachable : user.priv = .user ∧ super.priv = .supervisor := by decide

theorem witness_ModeChangesOnlyByInterruptAndRti :
    (∃ t, initiateInterrupt requested = .next t) ∧
    (∃ t, exec .rti { super with mem := [(0x2FFF, 0x80)] } = .next t) ∧
    (Instr.trap 0 ≠ .rti ∧ ∃ t, exec (.trap 0) user = .next t) ∧
    (∃ t, step requested = .next t ∧ t.priv ≠ requested.priv) :=
  ⟨⟨_, rfl⟩, ⟨_, rfl⟩, ⟨by decide, _, rfl⟩, _, rfl, by decide⟩

theorem witness_PsrLayout :
    (3 ≤ 3 ∧ 3 ≤ 14) ∧ (3 ≤ 14 ∧ 14 ≤ 14) ∧
    ∀ k, k < 3 ∨ k = 15 → (0xFFF8 : Word).getLsbD k = (0x8000 : Word).getLsbD k := by
  refine ⟨by decide, by decide, ?_⟩
  intro k hk
  have : k = 0 ∨ k = 1 ∨ k = 2 ∨ k = 15 := by omega
  rcases this with rfl | rfl | rfl | rfl <;> decide

theorem witness_BrBranchesOnATestedCode :
    ((true = true ∧ super.n = true) ∨ (false = true ∧ super.z = true) ∨ (false = true ∧ super.p = true)) ∧
    ¬ ((false = true ∧ super.n = true) ∨ (true = true ∧ super.z = true) ∨ (true = true ∧ super.p = true)) := by
  decide

theorem witness_BrDecisionTable :
    (super.n = true ∧ super.z = false ∧ super.p = false) ∧
    (user.n = false ∧ user.z = true ∧ user.p = false) ∧
    (requested.n = false ∧ requested.z = false ∧ requested.p = true) := by decide

theorem witness_BrTestingNothingIsANoOperation :
    Fetches { user with mem := [(0x3000, 0xFF), (0x3001, 0x01)] } ∧ isOdd user.pc = false ∧ user.pc.toNat < 0xFE00 ∧
    wordAt { user with mem := [(0x3000, 0xFF), (0x3001, 0x01)] } user.pc.toNat < 0x200 :=
  ⟨by unfold Fetches; decide, by decide, by decide, by decide⟩

theorem witness_JmpAndRetGoToAnEvenAddress :
    isOdd (State.reg { user with r3 := 0xFFFE } .r3) = false ∧ isOdd (State.reg { user with r3 := 0xFDFF } .r3) = true ∧
    isOdd (State.reg { user with r7 := 0x3010 } .r7) = false ∧ isOdd (State.reg { user with r7 := 0x3011 } .r7) = true := by
  decide

theorem witness_JsrrLinksAndJumps :
    (Reg.r6 ≠ .r7 ∧ isOdd (State.reg { user with usp := 0xFFFE } .r6) = false) ∧
    (Reg.r0 ≠ .r7 ∧ isOdd (State.reg { user with r0 := 1 } .r0) = true) ∧ isOdd user.pc = false := by decide

theorem witness_LdbLoadsASignedByte :
    (byteAddress .r1 1 { user with r1 := 0xFDFE }).toNat < 0xFE00 ∧
    0xFE00 ≤ (byteAddress .r1 1 { user with r1 := 0xFDFF }).toNat := by decide

theorem witness_LdwLoadsAWord :
    (isOdd (State.reg { user with r1 := 0xFDFC } .r1) = false ∧
      (wordAddress .r1 1 { user with r1 := 0xFDFC }).toNat < 0xFE00) ∧
    isOdd (State.reg { user with r1 := 0x4001 } .r1) = true ∧
    (isOdd (State.reg { user with r1 := 0xFE00 } .r1) = false ∧
      0xFE08 ≤ (wordAddress .r1 4 { user with r1 := 0xFE00 }).toNat ∧
      (wordAddress .r1 4 { user with r1 := 0xFE00 }).toNat ≤ 0xFFFC) := by decide

theorem witness_LdwReadsTheDeviceRegisters :
    wordAddress .r1 0 { user with r1 := 0xFE00 } = 0xFE00 ∧ wordAddress .r1 1 { user with r1 := 0xFE00 } = 0xFE02 ∧
    wordAddress .r1 2 { user with r1 := 0xFE00 } = 0xFE04 ∧ wordAddress .r1 3 { user with r1 := 0xFE00 } = 0xFE06 ∧
    wordAddress .r1 (-1) user = 0xFFFE := by decide

theorem witness_StbStoresTheLowByte :
    (byteAddress .r1 0 { user with r1 := 0xFDFF }).toNat < 0xFE00 ∧
    0xFE00 ≤ (byteAddress .r1 (-1) user).toNat := by decide

theorem witness_StwStoresAWord :
    (isOdd (State.reg { user with r1 := 0xFDFE } .r1) = false ∧
      (wordAddress .r1 0 { user with r1 := 0xFDFE }).toNat < 0xFE00) ∧
    isOdd (State.reg { user with r1 := 0x4001 } .r1) = true ∧
    (isOdd (State.reg { user with r1 := 0xFFFC } .r1) = false ∧
      0xFE08 ≤ (wordAddress .r1 0 { user with r1 := 0xFFFC }).toNat ∧
      (wordAddress .r1 0 { user with r1 := 0xFFFC }).toNat ≤ 0xFFFC) := by decide

theorem witness_StwWritesTheDeviceRegisters :
    wordAddress .r1 0 { user with r1 := 0xFE00 } = 0xFE00 ∧
    (wordAddress .r1 1 { user with r1 := 0xFE00 } = 0xFE02 ∨ wordAddress .r1 1 { user with r1 := 0xFE00 } = 0xFE04) ∧
    (wordAddress .r1 3 { user with r1 := 0xFE00, dsReady := true } = 0xFE06 ∧
      wordAddress .r1 3 { user with r1 := 0xFE00 } = 0xFE06 ∧ user.dsReady = false) ∧
    (wordAddress .r1 (-1) user = 0xFFFE ∧ (State.reg user .r2).getLsbD 15 = false ∧
      (State.reg { user with r2 := 0x8000 } .r2).getLsbD 15 = true) := by decide

theorem witness_TrapEntersTheServiceRoutine :
    wordAt { user with mem := [(0x1FE, 0xFE), (0x1FF, 0xFD)] } (2 * (0xFF : BitVec 8).toNat) % 2 = 0 ∧
    wordAt { user with mem := [(0, 1)] } (2 * (0 : BitVec 8).toNat) % 2 = 1 := by decide

theorem witness_RtiPopsPcThenPsr :
    State.priv { super with ssp := 0xFDFC } = .supervisor ∧ isOdd 0xFDFC = false ∧ (0xFDFC : Word).toNat < 0xFDFE ∧
    wordAt { super with ssp := 0xFDFC } (0xFDFC : Word).toNat % 2 = 0 := by decide

/-- A stack whose first word is refused, one whose second word is refused, and one read whole. -/
theorem witness_RtiReadsAnyStack :
    (super.priv = .supervisor ∧ isOdd 0xFE08 = false ∧ isOdd 0xFE06 = false ∧ isOdd super.ssp = false) ∧
    (readWord 0xFE08 { super with ssp := 0xFE08 } = .refused (.unassignedDeviceAddress 0xFE08)) ∧
    (∃ npc s1, readWord 0xFE06 { super with ssp := 0xFE06 } = .value npc s1 ∧
      readWord (0xFE06 + 2) s1 = .refused (.unassignedDeviceAddress 0xFE08)) ∧
    ∃ temp s2, readWord super.ssp super = .value 0 super ∧ readWord (super.ssp + 2) super = .value temp s2 :=
  ⟨by decide, rfl, ⟨_, _, rfl, rfl⟩, _, _, rfl, rfl⟩

theorem witness_PrivilegeViolationIsRtiInUserMode :
    exec .rti user = .fault (.privilegeModeViolation (user.pc - 2)) ∧ user.priv = .user := ⟨rfl, rfl⟩

/-- Each cause, at an odd value. -/
theorem witness_CausesOfIllegalOperandAddress :
    faultOf (exec (.jmp .r1) { user with r1 := 1 }) = some (.illegalOperandAddress 1 0x2FFE) ∧
    faultOf (exec .ret { user with r7 := 0xFFFF }) = some (.illegalOperandAddress 0xFFFF 0x2FFE) ∧
    faultOf (exec (.jsrr .r1) { user with r1 := 1 }) = some (.illegalOperandAddress 1 0x2FFE) ∧
    faultOf (exec (.ldw .r0 .r1 0) { user with r1 := 1 }) = some (.illegalOperandAddress 1 0x2FFE) ∧
    faultOf (exec (.stw .r0 .r1 0) { user with r1 := 1 }) = some (.illegalOperandAddress 1 0x2FFE) ∧
    faultOf (exec (.trap 0) { user with mem := [(0, 1)] }) = some (.illegalOperandAddress 1 0x2FFE) ∧
    faultOf (exec .rti { super with ssp := 1 }) = some (.illegalOperandAddress 1 0x3FE) := by decide

theorem witness_RtiRaisesOnOddWords :
    (super.priv = .supervisor ∧ isOdd (State.ssp { super with ssp := 0x2FFD }) = true) ∧
    isOdd super.ssp = false ∧ (readWord super.ssp { super with mem := [(0x2FFC, 0x05)] } =
      .value 5 { super with mem := [(0x2FFC, 0x05)] }) ∧ isOdd 5 = true :=
  ⟨by decide, by decide, rfl, by decide⟩

theorem witness_ByteAccesses : (0xFDFF : Word).toNat < 0xFE00 ∧ 0xFE00 ≤ (0xFE00 : Word).toNat := by decide

theorem witness_WordAccesses :
    (isOdd 0xFDFE = false ∧ (0xFDFE : Word).toNat < 0xFE00) ∧
    (isOdd 0xFFFE = false ∧ (DeviceRegister.mcr, (0xFFFE : Word)) ∈ [(DeviceRegister.kbsr, (0xFE00 : Word)), (.kbdr, 0xFE02),
      (.dsr, 0xFE04), (.ddr, 0xFE06), (.mcr, 0xFFFE)]) ∧
    (isOdd 0xFE08 = false ∧ 0xFE08 ≤ (0xFE08 : Word).toNat ∧ (0xFFFC : Word).toNat ≤ 0xFFFC) := by decide

theorem witness_MixedWidthAccesses :
    isOdd 0xFDFE = false ∧ (0xFDFE : Word).toNat < 0xFE00 ∧ (∃ t, writeWord 0xFDFE 0xABCD user = .next t) ∧
    (∃ t, writeByte 0xFDFE 0xCD user = .next t) ∧ ∃ t, writeByte (0xFDFE + 1) 0xAB user = .next t :=
  ⟨by decide, by decide, ⟨_, rfl⟩, ⟨_, rfl⟩, _, rfl⟩

theorem witness_OnlyStoresChangeStorage :
    (∀ sr b f, Instr.trap 0 ≠ .stb sr b f) ∧ (∀ sr b f, Instr.trap 0 ≠ .stw sr b f) ∧
    ∃ t, exec (.trap 0) user = .next t :=
  ⟨by simp, by simp, _, rfl⟩

/-- At the last fetch address of storage. -/
theorem witness_StepRunsTheDecodedInstruction :
    Fetches { user with pc := 0xFDFE } ∧ isOdd 0xFDFE = false ∧ (0xFDFE : Word).toNat < 0xFE00 ∧
    decodeBytes [Memory.read [] 0xFDFE, Memory.read [] 0xFDFF] = .word (.instr (.br false false false 0)) [] ∧
    decodeBytes [Memory.read [(0xFDFE, 1), (0xFDFF, 0x80)] 0xFDFE, Memory.read [(0xFDFE, 1), (0xFDFF, 0x80)] 0xFDFF] =
      .word (.reservedEncoding 0x8001) [] :=
  ⟨by unfold Fetches; decide, by decide, by decide, by decide, by decide⟩

theorem witness_PlacedInstructionIsRunNext :
    Fetches user ∧ isOdd user.pc = false ∧ user.pc.toNat < 0xFE00 ∧ decodeTableWord 16 0xFFFFF000 = some (.trap 0) :=
  ⟨by unfold Fetches; decide, by decide, by decide, by decide⟩

theorem witness_FetchInTheDeviceRegionIsRefused :
    Fetches { user with pc := 0xFE00 } ∧ 0xFE00 ≤ (State.pc { user with pc := 0xFE00 }).toNat :=
  ⟨by unfold Fetches; decide, by decide⟩

theorem witness_HaltedMachineStays : State.halted { requested with clockEnable := false } := rfl

theorem witness_InterruptIsTakenOnRequestInUserMode :
    requested.clockEnable = true ∧
    ((deviceBoundary requested).kbReady = true ∧ (deviceBoundary requested).kbIE = true ∧
      (deviceBoundary requested).priv = .user) ∧
    ¬ ((deviceBoundary user).kbReady = true ∧ (deviceBoundary user).kbIE = true ∧
      (deviceBoundary user).priv = .user) := by decide

theorem witness_InterruptInitiationSavesPsrAndPc :
    (isOdd 4 = false ∧ 4 ≤ (4 : Word).toNat ∧ (4 : Word).toNat ≤ 0xFE00) ∧
    (isOdd 0xFE00 = false ∧ 4 ≤ (0xFE00 : Word).toNat ∧ (0xFE00 : Word).toNat ≤ 0xFE00) ∧
    wordAt requested 0x280 % 2 = 0 := by decide

/-- The boundary of V123 with another supervisor stack pointer. -/
def requestedAt (sp : Word) : State := { requested with ssp := sp }

/-- The first push of interrupt initiation. -/
def firstPush (s : State) : Result := writeWord (s.ssp - 2) (psrWord s) { s with priv := .supervisor }

/-- A stack whose first push is refused, one whose second push is refused, and one pushed whole. -/
theorem witness_InterruptInitiationPushesAnywhere :
    (isOdd (requestedAt 0xFE0A).ssp = false ∧ wordAt (requestedAt 0xFE0A) 0x280 % 2 = 0 ∧
      firstPush (requestedAt 0xFE0A) = .refused (.unassignedDeviceAddress 0xFE08)) ∧
    (isOdd (requestedAt 0).ssp = false ∧ wordAt (requestedAt 0) 0x280 % 2 = 0 ∧
      ∃ s1, firstPush (requestedAt 0) = .next s1 ∧
        writeWord ((requestedAt 0).ssp - 4) (requestedAt 0).pc s1 = .refused (.unassignedDeviceAddress 0xFFFC)) ∧
    isOdd (requestedAt 0x3000).ssp = false ∧ wordAt (requestedAt 0x3000) 0x280 % 2 = 0 ∧
      ∃ s1 s2, firstPush (requestedAt 0x3000) = .next s1 ∧
        writeWord ((requestedAt 0x3000).ssp - 4) (requestedAt 0x3000).pc s1 = .next s2 :=
  ⟨⟨by decide, by decide, rfl⟩, ⟨by decide, by decide, _, rfl, rfl⟩, by decide, by decide, _, _, rfl, rfl⟩

theorem witness_InterruptInitiationRaisesOnOddWords :
    isOdd (State.ssp { requested with ssp := 0x3001 }) = true ∧ isOdd requested.ssp = false ∧
    wordAt { requested with mem := [(0x280, 0x01), (0x281, 0x10)] } 0x280 % 2 = 1 := by decide

theorem witness_RtiUndoesInterruptInitiation :
    ∃ t, initiateInterrupt requested = .next t ∧ isOdd requested.ssp = false ∧ 4 ≤ requested.ssp.toNat ∧
      requested.ssp.toNat ≤ 0xFE00 ∧ isOdd requested.pc = false ∧ t.priv = .supervisor :=
  ⟨_, rfl, by decide, by decide, by decide, by decide, rfl⟩

theorem witness_DeviceAgentsTouchOnlyTheirRegisters :
    State.schedule { user with schedule := [[.key 0x41, .ready], []] } = (.key 0x41 :: [.ready]) :: [[]] ∧
    State.schedule { user with schedule := [[.ready]] } = (.ready :: []) :: [] ∧
    State.schedule { user with schedule := [[]] } = [] :: [] ∧ State.schedule { user with schedule := [] } = [] :=
  ⟨rfl, rfl, rfl, rfl⟩

theorem witness_StepKeepsPcEvenAndMemoryCanonical :
    MachineInv requested ∧ ∃ t, step requested = .next t := ⟨by unfold MachineInv; decide, _, rfl⟩

theorem witness_NoStepMakesAnUnalignedWordAccess : MachineInv requested := by unfold MachineInv; decide

end Sys2Proof.Tests
end

section
/-! SUPPORT. The unsigned values of the extensions and shifts (spec/00_scope.md R12, R13). -/

namespace Sys2Proof.Machine

theorem toNat_sext16 {n : Nat} (x : BitVec n) (hn : n ≤ 16) :
    (sext16 x).toNat = x.toNat + (if x.msb then 2 ^ 16 - 2 ^ n else 0) := by
  rw [sext16, BitVec.toNat_signExtend, BitVec.toNat_setWidth_of_le hn]

theorem toNat_zext16 {n : Nat} (x : BitVec n) (hn : n ≤ 16) : (zext16 x).toNat = x.toNat :=
  BitVec.toNat_setWidth_of_le hn

@[simp] theorem toNat_lshf (a : Word) (b : Nat) : (lshf a b).toNat = a.toNat * 2 ^ b % 2 ^ 16 := by
  rw [lshf, BitVec.toNat_shiftLeft, Nat.shiftLeft_eq]

@[simp] theorem rshf_false (a : Word) (b : Nat) : rshf a b false = a >>> b := BitVec.or_zero

/-- The unsigned value of the fill of R13, whose upper `b` bits are 1. -/
theorem toNat_allOnes_shiftLeft (b : Nat) :
    (BitVec.allOnes 16 <<< (16 - b)).toNat = 2 ^ 16 - 2 ^ (16 - b) := by
  have hpos : 0 < 2 ^ (16 - b) := Nat.two_pow_pos _
  have hle : 2 ^ (16 - b) ≤ 2 ^ 16 := Nat.pow_le_pow_right two_pos (Nat.sub_le ..)
  rw [BitVec.toNat_shiftLeft, BitVec.toNat_allOnes, Nat.shiftLeft_eq]
  omega

/-- The shifted word stays below the filled positions, so filling them adds. -/
theorem toNat_rshf_true (a : Word) {b : Nat} (hb : b ≤ 16) :
    (rshf a b true).toNat = a.toNat / 2 ^ b + (2 ^ 16 - 2 ^ (16 - b)) := by
  have hlow : a.toNat / 2 ^ b < 2 ^ (16 - b) := Nat.div_lt_of_lt_mul (by
    rw [← pow_add, Nat.add_sub_cancel' hb]; exact a.isLt)
  have hfill : 2 ^ 16 - 2 ^ (16 - b) = (2 ^ b - 1) <<< (16 - b) := by
    rw [Nat.shiftLeft_eq, Nat.sub_mul, ← pow_add, Nat.add_sub_cancel' hb, one_mul]
  calc (rshf a b true).toNat
      = a.toNat / 2 ^ b ||| (2 ^ 16 - 2 ^ (16 - b)) := by
        rw [rshf, if_pos rfl, BitVec.toNat_or, BitVec.toNat_ushiftRight, toNat_allOnes_shiftLeft b,
          Nat.shiftRight_eq_div_pow]
    _ = a.toNat / 2 ^ b + (2 ^ 16 - 2 ^ (16 - b)) := by
        rw [hfill, Nat.or_comm, ← Nat.shiftLeft_add_eq_or_of_lt hlow, Nat.add_comm]

theorem toNat_rshf (a : Word) {b : Nat} (s : Bool) (hb : b ≤ 16) :
    (rshf a b s).toNat = a.toNat / 2 ^ b + (if s then 2 ^ 16 - 2 ^ (16 - b) else 0) := by
  cases s with
  | false => rw [rshf_false, BitVec.toNat_ushiftRight, Nat.shiftRight_eq_div_pow]; rfl
  | true => exact toNat_rshf_true a hb

end Sys2Proof.Machine
end

section
/-! The statements of spec/00_scope.md. -/

namespace Sys2Proof.Machine

/-- Settles O9, from the unsigned values of the shifts; the examples are computed. -/
theorem lshfAndRshfFormulas : Obligations.LshfAndRshfFormulas :=
  ⟨fun a b _ => toNat_lshf a b, fun a _ s hb => toNat_rshf a s (Nat.le_succ_of_le hb), by decide, by decide⟩

/-- Settles O8, from the unsigned values of the extensions: the top bit of a field of `n` bits is its bit
`n - 1`. The examples are computed. -/
theorem sextAndZextFormulas : Obligations.SextAndZextFormulas := by
  refine ⟨fun n x _ hn => ⟨?_, toNat_zext16 x hn⟩, by decide, by decide⟩
  have hpow : 2 ^ n ≤ 2 ^ 16 := Nat.pow_le_pow_right two_pos hn
  rw [toNat_sext16 x hn, BitVec.msb_eq_getLsbD_last]
  split
  · exact (Nat.add_sub_assoc hpow _).symm
  · exact Nat.add_zero _

end Sys2Proof.Machine
end

section
/-! SUPPORT. What a boundary and a word access leave unchanged, the parity of the addresses, R6 and the PSR
word. -/

namespace Sys2Proof.Machine

@[simp] theorem deviceBoundary_pc (s : State) : (deviceBoundary s).pc = s.pc := by
  obtain ⟨_, _, _, _, _, h⟩ := deviceBoundary_changes s
  rw [h]

@[simp] theorem deviceBoundary_priv (s : State) : (deviceBoundary s).priv = s.priv := by
  obtain ⟨_, _, _, _, _, h⟩ := deviceBoundary_changes s
  rw [h]

@[simp] theorem deviceBoundary_mem (s : State) : (deviceBoundary s).mem = s.mem := by
  obtain ⟨_, _, _, _, _, h⟩ := deviceBoundary_changes s
  rw [h]

theorem priv_readWord {a : Word} {s t : State} {v : Word} (h : readWord a s = .value v t) : t.priv = s.priv := by
  obtain ⟨_, _, rfl⟩ := readWord_changes h
  rfl

theorem mem_readWord {a : Word} {s t : State} {v : Word} (h : readWord a s = .value v t) : t.mem = s.mem := by
  obtain ⟨_, _, rfl⟩ := readWord_changes h
  rfl

theorem mem_returnFromInterrupt {s t : State} (h : returnFromInterrupt s = .next t) : t.mem = s.mem := by
  obtain ⟨-, -, npc, s1, temp, s2, h1, -, h2, rfl⟩ := returnFromInterrupt_next h
  exact (mem_readWord h2).trans (mem_readWord h1)

theorem sameCodes_writeWord {a v : Word} {s t : State} (h : writeWord a v s = .next t) :
    SameCodes s t := by
  obtain ⟨_, _, _, _, _, _, rfl⟩ := writeWord_changes h
  exact ⟨rfl, rfl, rfl⟩

theorem priv_writeWord {a v : Word} {s t : State} (h : writeWord a v s = .next t) : t.priv = s.priv := by
  obtain ⟨_, _, _, _, _, _, rfl⟩ := writeWord_changes h
  rfl

theorem isOdd_sub {a b : Word} (hb : isOdd b = false) : isOdd (a - b) = isOdd a := by
  simp only [isOdd_eq, decide_eq_false_iff_not, decide_eq_decide, BitVec.toNat_sub] at *
  omega

/-- A branch target is even where the PC is (R28, R130). -/
theorem isOdd_pcRelative9 (f : BitVec 9) (s : State) : isOdd (pcRelative9 f s) = isOdd s.pc :=
  isOdd_add (isOdd_lshf_one _)

theorem isOdd_pcRelative11 (f : BitVec 11) (s : State) : isOdd (pcRelative11 f s) = isOdd s.pc :=
  isOdd_add (isOdd_lshf_one _)

/-- An even base register gives LDW and STW an even address (R61). -/
theorem isOdd_wordAddress (baseR : Reg) (f : BitVec 6) (s : State) :
    isOdd (wordAddress baseR f s) = isOdd (s.reg baseR) :=
  isOdd_add (isOdd_lshf_one _)

/-- The selected R6 cell is the one written (R23). -/
theorem setReg_r6_supervisor {s : State} (v : Word) (h : s.priv = .supervisor) :
    s.setReg .r6 v = { s with ssp := v } := by simp [State.setReg, h]

theorem setReg_r6_user {s : State} (v : Word) (h : s.priv = .user) :
    s.setReg .r6 v = { s with usp := v } := by simp [State.setReg, h]

/-- A word with one bit has that bit alone. -/
theorem getLsbD_flagAt {pos : Nat} (hpos : pos < 16) (b : Bool) (k : Nat) :
    (flagAt pos b).getLsbD k = (decide (k = pos) && b) := by
  have hk : (k < 16 ∧ pos ≤ k ∧ k - pos = 0) ↔ k = pos := by omega
  rw [flagAt, getLsbD_field, BitVec.getLsbD_ofBool]
  simp only [← Bool.and_assoc, ← Bool.decide_and, hk]

/-- The bits of the PSR word (R36). -/
theorem getLsbD_psrWord (s : State) (k : Nat) : (psrWord s).getLsbD k =
    (decide (k = 15) && s.priv.bit || decide (k = 2) && s.n || decide (k = 1) && s.z || decide (k = 0) && s.p) := by
  simp (disch := decide) only [psrWord, BitVec.getLsbD_or, getLsbD_flagAt]

/-- PSR[15] of the mode PSR[15] names (R35). -/
@[simp] theorem Mode.bit_ofBit (b : Bool) : (Mode.ofBit b).bit = b := by cases b <;> rfl

/-- The four flags of the PSR word (R34, R36). -/
theorem psrWord_flags (s : State) : (psrWord s).getLsbD 15 = s.priv.bit ∧ (psrWord s).getLsbD 2 = s.n ∧
    (psrWord s).getLsbD 1 = s.z ∧ (psrWord s).getLsbD 0 = s.p := by
  simp only [getLsbD_psrWord]
  simp

end Sys2Proof.Machine
end

section
/-! SUPPORT. What an instruction can do when it completes, said once for all 25: every statement about the next
state of an instruction is a case analysis over `Completes`. -/

namespace Sys2Proof.Machine

/-- The ways an instruction can take `s` to `t`, by what it writes. A read before the write changes at most
KBSR[15] and the count of free reads (`readWord_changes`). -/
inductive Completes : Instr → State → State → Prop where
  /-- A result is written to DR, with its codes (R32). -/
  | writesDr {i : Instr} {s : State} {dr : Reg} (v : Word) (k : Bool) (c : Nat)
      (hd : destination i = some dr) : Completes i s (writeDr dr v { s with kbReady := k, freeCount := c })
  /-- The PC is written, or kept by a BR that does not branch. -/
  | jumps {i : Instr} {s : State} (x : Word) (hd : destination i = none)
      (hx : isOdd s.pc = false → isOdd x = false) : Completes i s { s with pc := x }
  /-- R7 is written with the link, and the PC (R136, R137, R160). -/
  | links {i : Instr} {s : State} (x : Word) (k : Bool) (c : Nat) (hd : destination i = none)
      (hx : isOdd s.pc = false → isOdd x = false) :
      Completes i s { State.setReg { s with kbReady := k, freeCount := c } .r7 s.pc with pc := x }
  /-- STB: a byte is written to memory (R149). -/
  | storesByte {s t : State} (sr baseR : Reg) (f : BitVec 6)
      (h : writeByte (byteAddress baseR f s) (lowByte (s.reg sr)) s = .next t) : Completes (.stb sr baseR f) s t
  /-- STW: a word is written to memory (R151). -/
  | storesWord {s t : State} (sr baseR : Reg) (f : BitVec 6)
      (h : writeWord (wordAddress baseR f s) (s.reg sr) s = .next t) : Completes (.stw sr baseR f) s t
  /-- RTI (R163). -/
  | returns {s t : State} (h : returnFromInterrupt s = .next t) : Completes .rti s t

theorem completes_jumpTo {i : Instr} {x : Word} {s t : State} (hd : destination i = none)
    (h : jumpTo x s = .next t) : Completes i s t := by
  obtain ⟨hx, rfl⟩ := jumpTo_next h
  exact .jumps x hd fun _ => hx

/-- A linking jump after a read. -/
theorem completes_linkAndJumpTo {i : Instr} {x : Word} {s s' t : State} {k : Bool} {c : Nat}
    (hd : destination i = none) (hs : s' = { s with kbReady := k, freeCount := c })
    (h : linkAndJumpTo x s' = .next t) : Completes i s t := by
  obtain ⟨hx, rfl⟩ := linkAndJumpTo_next h
  subst hs
  exact .links x k c hd fun _ => hx

/-- An instruction that completes does one of the six things. -/
theorem completes_of_exec {i : Instr} {s t : State} (h : exec i s = .next t) : Completes i s t := by
  cases i with
  | br n z p f =>
    simp only [exec, execBr] at h
    split at h <;> cases h
    · exact .jumps _ rfl fun hs => (isOdd_pcRelative9 f s).trans hs
    · exact .jumps s.pc rfl id
  | jmp b => exact completes_jumpTo rfl h
  | ret => exact completes_jumpTo rfl h
  | jsr f =>
    cases h
    exact .links _ s.kbReady s.freeCount rfl fun hs => (isOdd_pcRelative11 f s).trans hs
  | jsrr b => exact completes_linkAndJumpTo (k := s.kbReady) (c := s.freeCount) rfl rfl h
  | trap f =>
    obtain ⟨w, s', hr, h⟩ := andThen_next h
    obtain ⟨k, c, hs⟩ := readWord_changes hr
    exact completes_linkAndJumpTo rfl hs h
  | ldb dr b f =>
    obtain ⟨v, s', hr, h⟩ := andThen_next h
    obtain ⟨-, -, hs⟩ := readByte_value hr
    subst s'
    cases h
    exact .writesDr _ s.kbReady s.freeCount rfl
  | ldw dr b f =>
    simp only [exec, execLdw] at h
    split at h
    · cases h
    · obtain ⟨v, s', hr, h⟩ := andThen_next h
      obtain ⟨k, c, rfl⟩ := readWord_changes hr
      cases h
      exact .writesDr v k c rfl
  | stb sr b f => exact .storesByte sr b f h
  | stw sr b f =>
    simp only [exec, execStw] at h
    split at h
    · cases h
    · exact .storesWord sr b f h
  | rti => exact .returns h
  | reserved1010 low => cases h
  | reserved1011 low => cases h
  | _ => cases h; exact .writesDr _ s.kbReady s.freeCount rfl

end Sys2Proof.Machine
end

section
/-! SUPPORT. The invariant of every run (spec/10_state.md R28): what each operation keeps of it. -/

namespace Sys2Proof.Machine

/-- A completed instruction at an even incremented PC keeps the invariant. -/
theorem machineInv_exec {i : Instr} {s t : State} (hs : MachineInv s) (h : exec i s = .next t) :
    MachineInv t := by
  obtain ⟨hmem, hpc⟩ := hs
  cases completes_of_exec h with
  | writesDr v k c hd => exact ⟨by simpa [writeDr] using hmem, by simpa [writeDr] using hpc⟩
  | jumps x hd hx => exact ⟨hmem, hx hpc⟩
  | links x k c hd hx => exact ⟨hmem, hx hpc⟩
  | storesByte sr b f h =>
    obtain ⟨ha, rfl⟩ := writeByte_next h
    exact ⟨wf_write _ ha hmem, hpc⟩
  | storesWord sr b f h =>
    refine ⟨writeWord_wf h hmem, ?_⟩
    obtain ⟨_, _, _, _, _, _, rfl⟩ := writeWord_changes h
    exact hpc
  | returns h =>
    refine ⟨mem_returnFromInterrupt h ▸ hmem, ?_⟩
    obtain ⟨-, -, npc, s1, temp, s2, -, hnpc, -, rfl⟩ := returnFromInterrupt_next h
    exact hnpc

/-- Interrupt initiation keeps memory canonical and loads an even PC (R186). -/
theorem machineInv_initiateInterrupt {s t : State} (hs : MachineInv s)
    (h : initiateInterrupt s = .next t) : MachineInv t := by
  obtain ⟨-, s2, hv, hpush, rfl⟩ := initiateInterrupt_next h
  obtain ⟨s1, h1, h2⟩ := pushPsrAndPc_next hpush
  have hmem : Memory.wf s2.mem = true := writeWord_wf h2 (writeWord_wf h1 hs.1)
  exact ⟨hmem, hv⟩

theorem machineInv_deviceBoundary {s : State} (hs : MachineInv s) : MachineInv (deviceBoundary s) := by
  simpa [MachineInv] using hs

theorem machineInv_incrementPc {s : State} (hs : MachineInv s) : MachineInv (incrementPc s) :=
  ⟨hs.1, (isOdd_add (by decide)).trans hs.2⟩

end Sys2Proof.Machine
end

section
/-! SUPPORT. What an execution and a step are refused for: never for a word access at an odd address. -/

namespace Sys2Proof.Machine

/-- The refusals of a data access: to an address of the device region, byte or word (R60). -/
def RefusesDeviceAddress (e : Refusal) : Prop :=
  ∃ a, e = .deviceByteAccess a ∨ e = .unassignedDeviceAddress a

theorem refusesDeviceAddress_readWord {a : Word} {s : State} {e : Refusal} (ho : isOdd a = false)
    (h : readWord a s = .refused e) : RefusesDeviceAddress e := by
  obtain ⟨hodd, -⟩ | ⟨-, -, -, rfl⟩ := readWord_refused h
  · simp [ho] at hodd
  · exact ⟨a, .inr rfl⟩

theorem refusesDeviceAddress_writeWord {a v : Word} {s : State} {e : Refusal} (ho : isOdd a = false)
    (h : writeWord a v s = .refused e) : RefusesDeviceAddress e := by
  obtain ⟨hodd, -⟩ | ⟨-, -, -, rfl⟩ := writeWord_refused h
  · simp [ho] at hodd
  · exact ⟨a, .inr rfl⟩

/-- RTI checks the stack pointer before its two reads (R163). -/
theorem refusesDeviceAddress_returnFromInterrupt {s : State} {e : Refusal}
    (h : returnFromInterrupt s = .refused e) : RefusesDeviceAddress e := by
  unfold returnFromInterrupt at h
  split at h
  · cases h
  · split at h
    · cases h
    next ho =>
    have ho := eq_false_of_ne_true ho
    obtain h1 | ⟨npc, s1, -, h⟩ := andThen_refused_iff.mp h
    · exact refusesDeviceAddress_readWord ho h1
    · split at h
      · cases h
      obtain h2 | ⟨temp, s2, -, h⟩ := andThen_refused_iff.mp h
      · exact refusesDeviceAddress_readWord ((isOdd_add (by decide)).trans ho) h2
      · cases h

/-- Interrupt initiation checks the stack pointer before its two pushes, and its vector is in storage (R186). -/
theorem refusesDeviceAddress_initiateInterrupt {s : State} {e : Refusal}
    (h : initiateInterrupt s = .refused e) : RefusesDeviceAddress e := by
  unfold initiateInterrupt at h
  split at h
  · cases h
  next ho =>
  have ho := eq_false_of_ne_true ho
  rw [readWord_storage s (by decide) (by decide), andThen_value] at h
  split at h
  · cases h
  obtain hpush | ⟨s2, -, h⟩ := andThenNext_refused h
  · obtain h1 | ⟨s1, -, h2⟩ := andThenNext_refused hpush
    · exact refusesDeviceAddress_writeWord ((isOdd_sub (by decide)).trans ho) h1
    · exact refusesDeviceAddress_writeWord ((isOdd_sub (by decide)).trans ho) h2
  · cases h

/-- An instruction is refused for a device address only: each checks before a word access. -/
theorem refusesDeviceAddress_exec {i : Instr} {s : State} {e : Refusal} (h : exec i s = .refused e) :
    RefusesDeviceAddress e := by
  cases i with
  | br n z p f =>
    simp only [exec, execBr] at h
    split at h <;> cases h
  | jmp b => exact (jumpTo_ne_refused _ _ _ h).elim
  | ret => exact (jumpTo_ne_refused _ _ _ h).elim
  | jsrr b => exact (linkAndJumpTo_ne_refused _ _ _ h).elim
  | trap f =>
    obtain hr | ⟨w, s', -, h⟩ := andThen_refused_iff.mp h
    · exact refusesDeviceAddress_readWord (isOdd_lshf_one _) hr
    · exact (linkAndJumpTo_ne_refused _ _ _ h).elim
  | ldb dr b f =>
    obtain hr | ⟨v, s', -, h⟩ := andThen_refused_iff.mp h
    · exact ⟨_, .inl (readByte_refused hr)⟩
    · cases h
  | ldw dr b f =>
    simp only [exec, execLdw] at h
    split at h
    · cases h
    next ho =>
    obtain hr | ⟨v, s', -, h⟩ := andThen_refused_iff.mp h
    · exact refusesDeviceAddress_readWord ((isOdd_wordAddress b f s).trans (eq_false_of_ne_true ho)) hr
    · cases h
  | stb sr b f => exact ⟨_, .inl (writeByte_refused h)⟩
  | stw sr b f =>
    simp only [exec, execStw] at h
    split at h
    · cases h
    next ho =>
    exact refusesDeviceAddress_writeWord ((isOdd_wordAddress b f s).trans (eq_false_of_ne_true ho)) h
  | rti => exact refusesDeviceAddress_returnFromInterrupt h
  | _ => cases h

/-- A fetch at an even PC is refused in the device region only (R71). -/
theorem fetchWord_refused {a : Word} {s : State} {e : Refusal} (ho : isOdd a = false)
    (h : fetchWord a s = .refused e) : e = .deviceFetch a := by
  unfold fetchWord at h
  split at h
  · cases h
    rfl
  next hr =>
  rw [readWord_storage s ho (inDeviceRegion_false.mp (eq_false_of_ne_true hr))] at h
  cases h

theorem instructionCycle_refused {s : State} {e : Refusal} (ho : isOdd s.pc = false)
    (h : instructionCycle s = .refused e) : e = .deviceFetch s.pc ∨ RefusesDeviceAddress e := by
  obtain hf | ⟨w, s', -, h⟩ := andThen_refused_iff.mp h
  · exact .inl (fetchWord_refused ho hf)
  · cases hd : decodeWord w with
    | instr i => exact .inr (refusesDeviceAddress_exec (by simpa only [hd, execDecoded] using h))
    | reservedEncoding v => rw [hd] at h; cases h

/-- What the step of a machine with an even PC is refused for. -/
theorem step_refused {s : State} {e : Refusal} (ho : isOdd s.pc = false) (h : step s = .refused e) :
    e = .deviceFetch s.pc ∨ RefusesDeviceAddress e := by
  unfold step machineStep at h
  split at h
  · unfold boundaryThenCycle at h
    split at h
    · exact .inr (refusesDeviceAddress_initiateInterrupt h)
    · simpa using instructionCycle_refused (by simpa using ho) h
  · cases h

end Sys2Proof.Machine
end

section
/-! SUPPORT. Which instructions change the condition codes, the mode and storage. -/

namespace Sys2Proof.Machine

/-- A negative value is not zero. -/
theorem isZero_of_isNegative {v : Word} (h : isNegative v = true) : isZero v = false := by
  rw [isZero, beq_eq_false_iff_ne]
  rintro rfl
  simp [isNegative] at h

/-- The codes are those of the value in DR (R32). -/
theorem writeDr_eq_setcc (dr : Reg) (v : Word) (s : State) :
    writeDr dr v s = setcc ((writeDr dr v s).reg dr) (writeDr dr v s) := by
  rw [(writeDr_spec s dr v).1]
  rfl

/-- No instruction but RTI changes the mode (R35). -/
theorem priv_exec {i : Instr} {s t : State} (hi : i ≠ .rti) (h : exec i s = .next t) :
    t.priv = s.priv := by
  cases completes_of_exec h with
  | writesDr v k c hd => simp [writeDr]
  | jumps x hd hx => rfl
  | links x k c hd hx => rfl
  | storesByte sr b f h =>
    obtain ⟨-, rfl⟩ := writeByte_next h
    rfl
  | storesWord sr b f h => exact priv_writeWord h
  | returns h => exact absurd rfl hi

/-- No instruction but STB and STW changes memory (R38). -/
theorem mem_exec {i : Instr} {s t : State} (hstb : ∀ sr b f, i ≠ .stb sr b f)
    (hstw : ∀ sr b f, i ≠ .stw sr b f) (h : exec i s = .next t) : t.mem = s.mem := by
  cases completes_of_exec h with
  | writesDr v k c hd => simp [writeDr]
  | jumps x hd hx => rfl
  | links x k c hd hx => rfl
  | storesByte sr b f h => exact absurd rfl (hstb sr b f)
  | storesWord sr b f h => exact absurd rfl (hstw sr b f)
  | returns h => exact mem_returnFromInterrupt h

theorem priv_initiateInterrupt {s t : State} (h : initiateInterrupt s = .next t) :
    t.priv = .supervisor := by
  obtain ⟨-, s2, -, hpush, rfl⟩ := initiateInterrupt_next h
  obtain ⟨s1, h1, h2⟩ := pushPsrAndPc_next hpush
  have hpriv : s2.priv = .supervisor := (priv_writeWord h2).trans (priv_writeWord h1)
  exact hpriv

/-- The interrupt is taken in user mode only (R187, decision D9). -/
theorem priv_of_interruptTaken {s : State} (h : interruptTaken s = true) : s.priv = .user := by
  simp only [interruptTaken, interruptPriority, Config.intrInSupervisor, Bool.or_false,
    Bool.and_eq_true, beq_iff_eq] at h
  exact h.2

end Sys2Proof.Machine
end

section
/-! SUPPORT. Two runs of one instruction, from a state and from the state with cells changed that the
instruction does not read (spec/10_state.md R23, R32). -/

namespace Sys2Proof.Machine

/-- A change of the two R6 cells and the condition codes. -/
structure CellChange where
  ssp : Word → Word
  usp : Word → Word
  n : Bool → Bool
  z : Bool → Bool
  p : Bool → Bool

/-- The state with its cells changed. -/
def CellChange.apply (e : CellChange) (s : State) : State :=
  { s with ssp := e.ssp s.ssp, usp := e.usp s.usp, n := e.n s.n, z := e.z s.z, p := e.p s.p }

/-- What is left of a change once the codes are written. -/
def CellChange.afterCodes (e : CellChange) : CellChange := { e with n := id, z := id, p := id }

/-- The codes are given other values. -/
def CellChange.codes (n z p : Bool) : CellChange := ⟨id, id, fun _ => n, fun _ => z, fun _ => p⟩

/-- The SSP is given another value. -/
def CellChange.sspTo (x : Word) : CellChange := ⟨fun _ => x, id, id, id, id⟩

/-- The USP is given another value. -/
def CellChange.uspTo (x : Word) : CellChange := ⟨id, fun _ => x, id, id, id⟩

/-- The change leaves the R6 cell a mode selects. -/
def CellChange.keepsR6 (e : CellChange) : Mode → Prop
  | .supervisor => e.ssp = id
  | .user => e.usp = id

theorem keepsR6_afterCodes {e : CellChange} {m : Mode} : e.afterCodes.keepsR6 m ↔ e.keepsR6 m := by
  cases m <;> rfl

/-- A read with the state after it changed. -/
def ReadResult.mapState {α : Type} (f : State → State) : ReadResult α → ReadResult α
  | .value v s => .value v (f s)
  | .refused e => .refused e

/-- A read of a changed state gone on with carries the change where what follows does. -/
theorem andThen_mapState {α : Type} {r : ReadResult α} {f h : State → State} {k k' : α → State → Result}
    (hk : ∀ v t, r = .value v t → k v (f t) = mapNext h (k' v t)) :
    (r.mapState f).andThen k = mapNext h (r.andThen k') := by
  cases r with
  | value v t => exact hk v t rfl
  | refused e => rfl

/-- An outcome and the same with its next state changed. -/
theorem outcomesRelated_mapNext {R : State → State → Prop} {f : State → State} (h : ∀ t, R t (f t))
    (o : Result) : OutcomesRelated R o (mapNext f o) := by
  cases o with
  | next t => exact h t
  | fault e => rfl
  | refused e => rfl

section carried
variable (e : CellChange)

/-! Memory accesses and jumps carry every change. -/

theorem readDevice_apply (d : DeviceRegister) (s : State) :
    readDevice d (e.apply s) = ((readDevice d s).1, e.apply (readDevice d s).2) := by
  cases d <;> rfl

theorem writeDevice_apply (d : DeviceRegister) (v : Word) (s : State) :
    writeDevice d v (e.apply s) = e.apply (writeDevice d v s) := by
  cases d with
  | ddr => cases h : s.dsReady <;> simp [writeDevice, writeDdr, CellChange.apply, h]
  | _ => rfl

theorem readByte_apply (a : Word) (s : State) : readByte a (e.apply s) = (readByte a s).mapState e.apply := by
  unfold readByte
  split <;> rfl

theorem readWord_apply (a : Word) (s : State) : readWord a (e.apply s) = (readWord a s).mapState e.apply := by
  unfold readWord
  split
  · rfl
  · split
    · cases deviceAt a with
      | some d => simp only [readDevice_apply, ReadResult.mapState]
      | none => rfl
    · rfl

theorem writeByte_apply (a : Word) (b : Byte) (s : State) :
    writeByte a b (e.apply s) = mapNext e.apply (writeByte a b s) := by
  unfold writeByte
  split <;> rfl

theorem writeWord_apply (a v : Word) (s : State) :
    writeWord a v (e.apply s) = mapNext e.apply (writeWord a v s) := by
  unfold writeWord
  split
  · rfl
  · split
    · cases deviceAt a with
      | some d => simp only [writeDevice_apply, mapNext]
      | none => rfl
    · rfl

theorem jumpTo_apply (x : Word) (s : State) : jumpTo x (e.apply s) = mapNext e.apply (jumpTo x s) := by
  unfold jumpTo
  split <;> rfl

theorem linkAndJumpTo_apply (x : Word) (s : State) :
    linkAndJumpTo x (e.apply s) = mapNext e.apply (linkAndJumpTo x s) := by
  unfold linkAndJumpTo
  split <;> rfl

/-- BR carries a change that leaves the codes. -/
theorem execBr_afterCodes_apply (n z p : Bool) (f : BitVec 9) (s : State) :
    execBr n z p f (e.afterCodes.apply s) = mapNext e.afterCodes.apply (execBr n z p f s) := by
  change (if branchTaken n z p s then _ else _) = _
  unfold execBr
  split <;> rfl

/-! Registers carry a change that leaves the selected R6 cell. -/

variable {e} {s : State} (he : e.keepsR6 s.priv)
include he

theorem reg_apply (r : Reg) : (e.apply s).reg r = s.reg r := by
  cases r with
  | r6 =>
    cases hp : s.priv <;> rw [hp] at he
    · simp [State.reg, CellChange.apply, hp, show e.ssp = id from he]
    · simp [State.reg, CellChange.apply, hp, show e.usp = id from he]
  | _ => rfl

theorem setReg_apply (r : Reg) (v : Word) : (e.apply s).setReg r v = e.apply (s.setReg r v) := by
  cases r with
  | r6 =>
    cases hp : s.priv <;> rw [hp] at he
    · simp [State.setReg, CellChange.apply, hp, show e.ssp = id from he]
    · simp [State.setReg, CellChange.apply, hp, show e.usp = id from he]
  | _ => rfl

theorem writeDr_apply (dr : Reg) (v : Word) :
    writeDr dr v (e.apply s) = e.afterCodes.apply (writeDr dr v s) := by
  rw [writeDr, setReg_apply he]
  rfl

theorem jsrrTarget_apply (baseR : Reg) : jsrrTarget baseR (e.apply s) = jsrrTarget baseR s :=
  reg_apply (s := s.setReg .r7 s.pc) he baseR

/-- RTI reads the SSP, which is R6 where it reads it, and writes the codes. -/
theorem returnFromInterrupt_apply :
    returnFromInterrupt (e.apply s) = mapNext e.afterCodes.apply (returnFromInterrupt s) := by
  cases hp : s.priv with
  | user => simp [returnFromInterrupt, CellChange.apply, hp, raiseAtInstr, raise, instrAddress, mapNext]
  | supervisor =>
    rw [hp] at he
    have hid : e.ssp = id := he
    have hssp (x : Word) : e.ssp x = x := congrFun hid x
    have happ : (e.apply s).ssp = s.ssp := hssp _
    have hpriv : (e.apply s).priv = .supervisor := hp
    unfold returnFromInterrupt
    rw [hpriv, hp, happ]
    dsimp only
    split
    · rfl
    · rw [readWord_apply]
      refine andThen_mapState fun npc s1 _ => ?_
      split
      · rfl
      · rw [readWord_apply]
        refine andThen_mapState fun temp s2 _ => congrArg Host.Outcome.next ?_
        simp only [CellChange.apply, CellChange.afterCodes, loadPsr, hssp, id]

/-- An instruction other than BR carries the change along: after one that writes the codes what is left of it. -/
theorem exec_apply {i : Instr} (hi : ∀ n z p f, i ≠ .br n z p f) :
    exec i (e.apply s) =
      mapNext (if (destination i).isSome = true ∨ i = .rti then e.afterCodes.apply else e.apply) (exec i s) := by
  cases i with
  | br n z p f => exact absurd rfl (hi n z p f)
  | jmp b => simpa [exec, execJmp, destination, reg_apply he] using jumpTo_apply e _ s
  | ret => exact jumpTo_apply e _ s
  | jsr f => rfl
  | jsrr b => simpa [exec, execJsrr, destination, jsrrTarget_apply he] using linkAndJumpTo_apply e _ s
  | ldb dr b f =>
    simp only [exec, execLdb, byteAddress, reg_apply he, readByte_apply]
    refine andThen_mapState fun v t ht => congrArg Host.Outcome.next ?_
    obtain ⟨-, -, rfl⟩ := readByte_value ht
    exact writeDr_apply he dr _
  | ldw dr b f =>
    simp only [exec, execLdw, wordAddress, reg_apply he, readWord_apply]
    split
    · rfl
    · refine andThen_mapState fun v t ht => congrArg Host.Outcome.next ?_
      exact writeDr_apply (priv_readWord ht ▸ he) dr v
  | stb sr b f => simpa [exec, execStb, destination, byteAddress, reg_apply he] using writeByte_apply e ..
  | stw sr b f =>
    simp only [exec, execStw, wordAddress, reg_apply he, writeWord_apply]
    split <;> rfl
  | trap f =>
    simp only [exec, execTrap, readWord_apply]
    exact andThen_mapState fun v t _ => linkAndJumpTo_apply e v t
  | rti => exact returnFromInterrupt_apply he
  | reserved1010 low => rfl
  | reserved1011 low => rfl
  | lea dr f => exact congrArg Host.Outcome.next (writeDr_apply he dr _)
  | _ =>
    simp only [exec, execAddReg, execAddImm, execAndReg, execAndImm, execXorReg, execXorImm, execNot, execLshf,
      execLshfAlt, execRshfl, execRshfa, reg_apply he, writeDr_apply he]
    rfl

end carried

/-- Every instruction carries a change of the cell that is not selected. -/
theorem exec_afterCodes_apply {e : CellChange} {s : State} (he : e.keepsR6 s.priv) (i : Instr) :
    exec i (e.afterCodes.apply s) = mapNext e.afterCodes.apply (exec i s) := by
  by_cases hi : ∃ n z p f, i = .br n z p f
  · obtain ⟨n, z, p, f, rfl⟩ := hi
    exact execBr_afterCodes_apply e n z p f s
  · have h := exec_apply (keepsR6_afterCodes.mpr he) fun n z p f hbr => hi ⟨n, z, p, f, hbr⟩
    rwa [show e.afterCodes.afterCodes = e.afterCodes from rfl, ite_self] at h

end Sys2Proof.Machine
end

section
/-! SUPPORT. Steps that fetch. -/

namespace Sys2Proof.Machine

theorem step_of_fetches {s : State} (h : Fetches s) : step s = instructionCycle (deviceBoundary s) := by
  simp [step, machineStep, boundaryThenCycle, h.1, h.2]

/-- The instruction cycle at an even PC in storage. -/
theorem instructionCycle_storage {s : State} (ho : isOdd s.pc = false) (ha : s.pc.toNat < storageEnd) :
    instructionCycle s = execDecoded (decodeWord (storageWord s.mem s.pc.toNat)) (incrementPc s) := by
  rw [instructionCycle, fetchWord_storage s ho ha, andThen_value]

/-- A fetching step runs what the word at the PC decodes to (R27, R70). -/
theorem step_of_fetches_storage {s : State} (h : Fetches s) (ho : isOdd s.pc = false)
    (ha : s.pc.toNat < storageEnd) :
    step s = execDecoded (decodeWord (storageWord s.mem s.pc.toNat)) (incrementPc (deviceBoundary s)) := by
  rw [step_of_fetches h, instructionCycle_storage (by simpa using ho) (by simpa using ha),
    deviceBoundary_mem, deviceBoundary_pc]

/-- Whether a machine fetches does not depend on its memory. -/
theorem fetches_withFetchWord {s : State} (h : Fetches s) (n w : Nat) : Fetches (s.withFetchWord n w) := by
  refine ⟨h.1, ?_⟩
  rw [show s.withFetchWord n w = { s with mem := (s.withFetchWord n w).mem } from rfl,
    deviceBoundary_setMem]
  exact h.2

/-- The placed word is read back at the PC. -/
theorem storageWord_withFetchWord (s : State) (n w : Nat) :
    storageWord (s.withFetchWord n w).mem s.pc.toNat = BitVec.ofNat 16 (w % 2 ^ n) :=
  storageWord_storeWord ..

theorem decodeWord_of_decodeTableWord {n w : Nat} {i : Instr} (h : decodeTableWord n w = some i) :
    decodeWord (BitVec.ofNat 16 (w % 2 ^ n)) = .instr i := by
  simp only [decodeTableWord, decodeBytes_bytes] at h
  cases hd : decodeWord (BitVec.ofNat 16 (w % 2 ^ n)) with
  | instr j => simpa [hd] using h
  | reservedEncoding v => simp [hd] at h

end Sys2Proof.Machine
end

section
/-! The statements of spec/10_state.md. -/

namespace Sys2Proof.Machine

/-- Settles O58: each of the three things a step can be keeps the invariant. -/
theorem stepKeepsPcEvenAndMemoryCanonical : Obligations.StepKeepsPcEvenAndMemoryCanonical := by
  intro s t hs h
  have hb := machineInv_deviceBoundary hs
  obtain ⟨-, rfl⟩ | ⟨-, -, h⟩ | ⟨-, -, h⟩ := step_next h
  · exact hs
  · exact machineInv_initiateInterrupt hb h
  · obtain ⟨-, -, i, -, h⟩ := instructionCycle_next h
    exact machineInv_exec (machineInv_incrementPc hb) h

/-- Settles O12: the three tests of `setcc` exclude each other, and an instruction with a DR completes with
`writeDr`. -/
theorem setccFollowsTheSign : Obligations.SetccFollowsTheSign := by
  refine ⟨fun v s => ⟨rfl, ?_⟩, fun s => ⟨rfl, rfl⟩, fun i dr s t hdr h => ?_⟩
  · split
    next hneg =>
      have hneg : isNegative v = true := hneg
      simp [isPositive, hneg, isZero_of_isNegative hneg]
    next hneg =>
      have hneg : isNegative v = false := eq_false_of_ne_true hneg
      split
      next hzero => subst hzero; exact ⟨rfl, rfl, rfl⟩
      next hzero =>
        have hzero : isZero v = false := beq_eq_false_iff_ne.mpr hzero
        simp [isPositive, hneg, hzero]
  · cases completes_of_exec h with
    | writesDr v k c hd =>
      cases hd.symm.trans hdr
      exact writeDr_eq_setcc ..
    | jumps x hd hx => simp [hd] at hdr
    | links x k c hd hx => simp [hd] at hdr
    | storesByte sr b f h => simp [destination] at hdr
    | storesWord sr b f h => simp [destination] at hdr
    | returns h => simp [destination] at hdr

/-- Settles O13, by what a completed instruction without a DR can do. -/
theorem otherInstructionsKeepTheCodes : Obligations.OtherInstructionsKeepTheCodes := by
  intro i s t hdr hi h
  cases completes_of_exec h with
  | writesDr v k c hd => simp [hd] at hdr
  | jumps x hd hx => exact ⟨rfl, rfl, rfl⟩
  | links x k c hd hx => exact ⟨rfl, rfl, rfl⟩
  | storesByte sr b f h =>
    obtain ⟨-, rfl⟩ := writeByte_next h
    exact ⟨rfl, rfl, rfl⟩
  | storesWord sr b f h => exact sameCodes_writeWord h
  | returns h => exact absurd rfl hi

/-- Settles O14: other codes are carried along by every instruction but BR, and nothing is left of them after an
instruction that writes them. -/
theorem onlyBrReadsTheCodes : Obligations.OnlyBrReadsTheCodes := by
  intro i s n z p hi
  have he : (CellChange.codes n z p).keepsR6 s.priv := by cases s.priv <;> rfl
  have hexec : exec i { s with n := n, z := z, p := p } = _ := exec_apply he hi
  rw [hexec]
  refine outcomesRelated_mapNext (fun t => ?_) _
  split
  · exact ⟨rfl, fun _ => rfl⟩
  next hnot => exact ⟨rfl, fun h => absurd h hnot⟩

/-- Settles O16: in each mode the stack pointer that is not R6 is carried along. -/
theorem hiddenStackPointerIsUnreachable : Obligations.HiddenStackPointerIsUnreachable := by
  intro i s x
  refine ⟨fun hs => ?_, fun hs => ?_⟩
  · exact exec_afterCodes_apply (e := .sspTo x) (by rw [hs]; rfl) i
  · exact exec_afterCodes_apply (e := .uspTo x) (by rw [hs]; rfl) i

/-- Settles O17: a step that changes the mode is no halted step; the interrupt is taken in user mode only, and
RTI completes in supervisor mode only. -/
theorem modeChangesOnlyByInterruptAndRti : Obligations.ModeChangesOnlyByInterruptAndRti := by
  refine ⟨rfl, rfl, fun s t h => priv_initiateInterrupt h, fun s t h => ?_,
    fun i s t hi h => priv_exec hi h, fun s t h hne => ?_⟩
  · obtain ⟨-, -, npc, s1, temp, s2, h1, -, h2, rfl⟩ := returnFromInterrupt_next h
    exact ⟨npc, s1, temp, s2, h1, h2, Mode.bit_ofBit _⟩
  · obtain ⟨-, rfl⟩ | ⟨-, htaken, h⟩ | ⟨-, -, h⟩ := step_next h
    · exact absurd rfl hne
    · exact .inl ⟨by simpa using priv_of_interruptTaken htaken, h⟩
    · obtain ⟨-, -, i, -, h⟩ := instructionCycle_next h
      by_cases hi : i = .rti
      · subst hi
        obtain ⟨hpriv, -⟩ := returnFromInterrupt_next h
        exact .inr ⟨by simpa using hpriv, h⟩
      · exact absurd (by simpa using priv_exec hi h) hne

/-- Settles O47: an instruction other than STB and STW leaves memory as it is. -/
theorem onlyStoresChangeStorage : Obligations.OnlyStoresChangeStorage := by
  intro i s t hstb hstw h a _
  rw [mem_exec hstb hstw h]

/-- Settles O60: what a step with an even PC is refused for is a fetch or a data access in the device region. -/
theorem noStepMakesAnUnalignedWordAccess : Obligations.NoStepMakesAnUnalignedWordAccess := by
  intro s a hs h
  obtain h | ⟨b, h | h⟩ := step_refused hs.2 h <;> cases h

/-- Settles O15, from the laws of `reg` and `setReg`. -/
theorem registerSixIsBanked : Obligations.RegisterSixIsBanked :=
  ⟨fun s v h => ⟨reg_r6_supervisor s h, setReg_r6_supervisor v h⟩,
    fun s v h => ⟨reg_r6_user s h, setReg_r6_user v h⟩,
    fun s r v => ⟨reg_setReg_same s r v, setReg_priv s r v,
      fun _ hr => reg_setReg_other s r v (by simpa using hr), hiddenSp_setReg s r v⟩⟩

/-- Settles O18, bit by bit from the four flags of the PSR word. -/
theorem psrLayout : Obligations.PsrLayout := by
  refine ⟨fun s => ?_, fun s t => ?_, fun v w t h => ?_⟩
  · obtain ⟨h15, h2, h1, h0⟩ := psrWord_flags s
    refine ⟨h15, h2, h1, h0, fun k h3 h14 => ?_⟩
    have hk : k ≠ 15 ∧ k ≠ 2 ∧ k ≠ 1 ∧ k ≠ 0 := by omega
    simp [getLsbD_psrWord, hk]
  · obtain ⟨h15, h2, h1, h0⟩ := psrWord_flags s
    simp only [loadPsr, h15, h2, h1, h0, Mode.ofBit_bit]
  · simp only [loadPsr, h 15 (.inr rfl), h 2 (by decide), h 1 (by decide), h 0 (by decide)]

/-- Settles O48: the two bytes at the PC are the fetched word, and the address of the instruction is the PC
before the increment. -/
theorem stepRunsTheDecodedInstruction : Obligations.StepRunsTheDecodedInstruction := by
  intro s hf ho ha
  have hstep := step_of_fetches_storage hf ho ha
  refine ⟨fun i hd => ?_, fun w hd => ?_⟩
  · have hd : decodeWord (storageWord s.mem s.pc.toNat) = .instr i := (BytesDecoded.word.inj hd).1
    rw [hstep, hd, execDecoded, incrementPc, deviceBoundary_pc]
  · have hd : decodeWord (storageWord s.mem s.pc.toNat) = .reservedEncoding w := (BytesDecoded.word.inj hd).1
    simp [hstep, hd, execDecoded, raiseAtInstr, raise, instrAddress]

/-- Settles O49: a fetching machine fetches the placed word too. -/
theorem placedInstructionIsRunNext : Obligations.PlacedInstructionIsRunNext := by
  intro s w i hf ho ha hd
  rw [step_of_fetches_storage (fetches_withFetchWord hf 16 w) ho ha,
    show (s.withFetchWord 16 w).pc = s.pc from rfl, storageWord_withFetchWord,
    decodeWord_of_decodeTableWord hd]
  rfl

/-- Settles O59: the memory after reset lists nothing. -/
theorem resetMeetsTheInvariant : Obligations.ResetMeetsTheInvariant :=
  ⟨⟨wf_nil, by decide⟩, rfl, rfl, rfl, by decide⟩

end Sys2Proof.Machine
end

section
/-! SUPPORT. The effective addresses as integers modulo 2^16, and a memory access at an address of each range:
storage, the five device registers, the rest of the device region. -/

namespace Sys2Proof.Machine

/-! ## Addresses -/

/-- A sign-extended field is the field's integer modulo 2^16 (R12). -/
theorem toNat_sext16_emod {n : Nat} (f : BitVec n) : ((sext16 f).toNat : Int) = f.toInt % 65536 := by
  rw [sext16, BitVec.signExtend, BitVec.toNat_ofInt]
  omega

/-- A count of words is twice the field's integer modulo 2^16 (R93 to R95). -/
theorem toNat_lshf_sext16_emod {n : Nat} (f : BitVec n) :
    ((lshf (sext16 f) 1).toNat : Int) = (2 * f.toInt) % 65536 := by
  have hf := toNat_sext16_emod f
  rw [toNat_lshf]
  omega

/-- The sum of words is the sum modulo 2^16 of what they stand for (D6). -/
theorem toNat_add_emod (a : Word) {x : Word} {k : Int} (hx : (x.toNat : Int) = k % 65536) :
    ((a + x).toNat : Int) = (a.toNat + k) % 65536 := by
  rw [BitVec.toNat_add]
  omega

/-- The address of the high byte of a word in storage does not wrap. -/
theorem toNat_add_one {a : Word} (ho : isOdd a = false) (ha : a.toNat < storageEnd) :
    (a + 1).toNat = a.toNat + 1 := by
  have hlt : a.toNat + 1 < storageEnd := even_succ_lt ho ha
  rw [storageEnd] at hlt
  bv_omega

theorem inDeviceRegion_true {a : Word} : inDeviceRegion a = true ↔ storageEnd ≤ a.toNat := by
  simp [inDeviceRegion, storageEnd]

/-! ## Byte accesses -/

/-- A byte read of storage. -/
theorem readByte_storage {a : Word} (s : State) (ha : a.toNat < storageEnd) :
    readByte a s = .value (Memory.read s.mem a.toNat) s := by
  simp [readByte, inDeviceRegion_false.mpr ha]

/-- A byte write of storage. -/
theorem writeByte_storage {a : Word} (b : Byte) (s : State) (ha : a.toNat < storageEnd) :
    writeByte a b s = .next (storeByte a.toNat b s) := by
  simp [writeByte, inDeviceRegion_false.mpr ha]

/-- A byte read in the device region (D14). -/
theorem readByte_device {a : Word} (s : State) (hr : inDeviceRegion a = true) :
    readByte a s = .refused (.deviceByteAccess a) := by
  simp [readByte, hr]

/-- A byte write in the device region (D14). -/
theorem writeByte_device {a : Word} (b : Byte) (s : State) (hr : inDeviceRegion a = true) :
    writeByte a b s = .refused (.deviceByteAccess a) := by
  simp [writeByte, hr]

/-! ## Words in storage after a byte is stored -/

/-- A byte stored at the address of a word replaces its low byte (R53). -/
theorem storageWord_storeByte_low (s : State) (a : Nat) (b : Byte) :
    storageWord (storeByte a b s).mem a = wordOfBytes b (highByte (storageWord s.mem a)) := by
  rw [storageWord, storageWord, highByte_wordOfBytes, storeByte_mem, read_write_same,
    read_write_other _ _ (Nat.succ_ne_self a)]

/-- A byte stored at the next address replaces its high byte (R53). -/
theorem storageWord_storeByte_high (s : State) (a : Nat) (b : Byte) :
    storageWord (storeByte (a + 1) b s).mem a = wordOfBytes (lowByte (storageWord s.mem a)) b := by
  rw [storageWord, storageWord, lowByte_wordOfBytes, storeByte_mem, read_write_same,
    read_write_other _ _ (Nat.succ_ne_self a).symm]

/-! ## Word accesses in the device region -/

/-- The five device registers at their addresses (R65). -/
def deviceAddresses : List (DeviceRegister × Word) :=
  [(.kbsr, 0xFE00), (.kbdr, 0xFE02), (.dsr, 0xFE04), (.ddr, 0xFE06), (.mcr, 0xFFFE)]

theorem deviceAt_of_mem : ∀ p ∈ deviceAddresses, inDeviceRegion p.2 = true ∧ deviceAt p.2 = some p.1 := by
  decide

/-- Between the DDR and the MCR there is no device register (R65). -/
theorem deviceAt_unassigned {a : Word} (hlo : 0xFE08 ≤ a.toNat) (hhi : a.toNat ≤ 0xFFFC) :
    deviceAt a = none := by
  have hne : ∀ c : Word, c.toNat < 0xFE08 ∨ 0xFFFC < c.toNat → a ≠ c := by
    rintro c hc rfl
    omega
  simp (disch := decide) only [deviceAt, hne, if_false]

/-- A word read at an address with no device register (D22). -/
theorem readWord_unassigned {a : Word} (s : State) (ho : isOdd a = false) (hr : inDeviceRegion a = true)
    (hd : deviceAt a = none) : readWord a s = .refused (.unassignedDeviceAddress a) := by
  simp [readWord, ho, hr, hd]

/-- A word write at an address with no device register (D22). -/
theorem writeWord_unassigned {a : Word} (v : Word) (s : State) (ho : isOdd a = false)
    (hr : inDeviceRegion a = true) (hd : deviceAt a = none) :
    writeWord a v s = .refused (.unassignedDeviceAddress a) := by
  simp [writeWord, ho, hr, hd]

/-! ## Fetches -/

/-- A fetch in the device region (R71, D17). -/
theorem fetchWord_device {a : Word} (s : State) (hr : inDeviceRegion a = true) :
    fetchWord a s = .refused (.deviceFetch a) := by
  rw [fetchWord, if_pos hr]

end Sys2Proof.Machine
end

section
/-! The statements of spec/20_memory.md. -/

namespace Sys2Proof.Machine

/-- Settles O11: each address is the base plus an operand value whose integer is known modulo 2^16, and a count of
words is even. -/
theorem effectiveAddressesWrap : Obligations.EffectiveAddressesWrap := fun s =>
  ⟨fun b f => toNat_add_emod (s.reg b) (toNat_sext16_emod f),
    fun b f => ⟨toNat_add_emod (s.reg b) (toNat_lshf_sext16_emod f), isOdd_wordAddress b f s⟩,
    fun f => ⟨toNat_add_emod s.pc (toNat_lshf_sext16_emod f), isOdd_pcRelative9 f s⟩,
    fun f => ⟨toNat_add_emod s.pc (toNat_lshf_sext16_emod f), isOdd_pcRelative11 f s⟩⟩

/-- Settles O45: in storage by the laws of `storeWord`; in the device region by what `deviceAt` answers. -/
theorem wordAccesses : Obligations.WordAccesses := by
  intro s a v ho
  refine ⟨fun ha => ⟨⟨_, readWord_storage s ho ha, toNat_storageWord s _⟩, ?_⟩, fun d hd => ?_,
    fun hlo hhi => ?_⟩
  · obtain ⟨-, -, -, -, hframe, -⟩ := writesOnlyStorage_word s a.toNat v
    refine ⟨_, writeWord_storage v s ho ha, ?_, rfl, hframe⟩
    rw [readWord_storage _ ho ha, storageWord_storeWord]
  · obtain ⟨hr, hd⟩ := deviceAt_of_mem (d, a) hd
    exact ⟨readWord_device s ho hr hd, writeWord_device v s ho hr hd⟩
  · have hr : inDeviceRegion a = true := inDeviceRegion_true.mpr (le_trans (by decide) hlo)
    have hd := deviceAt_unassigned hlo hhi
    exact ⟨readWord_unassigned s ho hr hd, writeWord_unassigned v s ho hr hd⟩

/-- Settles O46: both widths read the same two bytes of storage, at `x` and at `x + 1`. -/
theorem mixedWidthAccesses : Obligations.MixedWidthAccesses := by
  intro s x v b ho hx
  have hsucc := toNat_add_one ho hx
  have hx1 : (x + 1).toNat < storageEnd := hsucc ▸ even_succ_lt ho hx
  refine ⟨fun t h => ?_, fun t h => ?_, fun t h => ?_⟩
  · cases (writeWord_storage v s ho hx).symm.trans h
    rw [readByte_storage _ hx, readByte_storage _ hx1, hsucc, read_storeWord_low, read_storeWord_high]
    exact ⟨rfl, rfl⟩
  · obtain ⟨-, rfl⟩ := writeByte_next h
    refine ⟨_, _, readWord_storage s ho hx, readWord_storage _ ho hx, ?_⟩
    rw [storageWord_storeByte_low]
    exact ⟨lowByte_wordOfBytes .., highByte_wordOfBytes ..⟩
  · obtain ⟨-, rfl⟩ := writeByte_next h
    refine ⟨_, _, readWord_storage s ho hx, readWord_storage _ ho hx, ?_⟩
    rw [hsucc, storageWord_storeByte_high]
    exact ⟨highByte_wordOfBytes .., lowByte_wordOfBytes ..⟩

/-- Settles O44, by the laws of `storeByte`. -/
theorem byteAccesses : Obligations.ByteAccesses := by
  intro s a v
  refine ⟨fun ha => ⟨readByte_storage s ha, ?_⟩, fun ha => ?_⟩
  · obtain ⟨-, -, -, -, hframe, -⟩ := writesOnlyStorage_byte s a.toNat v
    refine ⟨_, writeByte_storage v s ha, ?_, rfl, hframe⟩
    rw [readByte_storage _ ha, storeByte_mem, read_write_same]
  · have hr : inDeviceRegion a = true := inDeviceRegion_true.mpr ha
    exact ⟨readByte_device s hr, writeByte_device v s hr⟩

/-- Settles O50: the boundary's device steps leave the PC in the device region, where a fetch is refused. -/
theorem fetchInTheDeviceRegionIsRefused : Obligations.FetchInTheDeviceRegionIsRefused := by
  intro s hf hpc
  rw [step_of_fetches hf, instructionCycle, deviceBoundary_pc,
    fetchWord_device _ (inDeviceRegion_true.mpr hpc), andThen_refused]

end Sys2Proof.Machine
end

section
/-! SUPPORT. The fields of an instruction word (spec/30_encoding.md R81): a field reads back from the word it was
put in, and a word is made of its adjacent fields. -/

namespace Sys2Proof

/-! ## Fields of a word read -/

/-- A field put in a word reads back. -/
@[simp] theorem extractLsb'_field_self {p n : Nat} (x : BitVec n) (h : p + n ≤ 16) :
    (field p x).extractLsb' p n = x := by
  apply BitVec.eq_of_getLsbD_eq
  intro k hk
  have hp : p + k < 16 := by omega
  simp [getElem_field, hk, hp]

/-- A field put in a word leaves the bits beside it 0. -/
@[simp] theorem extractLsb'_field_disjoint {p q m : Nat} (n : Nat) (x : BitVec m) (h : p + n ≤ q ∨ q + m ≤ p) :
    (field q x).extractLsb' p n = 0#n := by
  apply BitVec.eq_of_getLsbD_eq
  intro k hk
  rw [BitVec.getLsbD_extractLsb', getLsbD_field, BitVec.getLsbD_zero]
  obtain hbelow | habove := h
  · simp [show ¬ q ≤ p + k by omega]
  · simp [BitVec.getLsbD_of_ge x (p + k - q) (by omega)]

/-- A bit of a word from the field it lies in. -/
theorem getLsbD_of_extractLsb' {w : Word} {p n : Nat} {c : BitVec n} (h : w.extractLsb' p n = c) {k : Nat}
    (hk : k < n) : w.getLsbD (p + k) = c.getLsbD k := by
  rw [← h, BitVec.getLsbD_extractLsb', decide_eq_true hk, Bool.true_and]

/-- One bit of a word as a field. -/
theorem extractLsb'_one (w : Word) (k : Nat) : w.extractLsb' k 1 = BitVec.ofBool (w.getLsbD k) := by
  apply BitVec.eq_of_getLsbD_eq
  intro j hj
  obtain rfl := Nat.lt_one_iff.mp hj
  simp

theorem extractLsb'_one_of_getLsbD {w : Word} {k : Nat} {b : Bool} (h : w.getLsbD k = b) :
    w.extractLsb' k 1 = BitVec.ofBool b := h ▸ extractLsb'_one w k

/-- A field is zero where its unsigned value is. -/
theorem extractLsb'_eq_zero_iff {w : Word} {p n : Nat} :
    w.extractLsb' p n = 0#n ↔ w.toNat / 2 ^ p % 2 ^ n = 0 := by
  rw [← BitVec.toNat_inj, BitVec.extractLsb'_toNat, Nat.shiftRight_eq_div_pow, BitVec.toNat_ofNat, Nat.zero_mod]

theorem extractLsb'_beq_zero_eq_false {w : Word} {p n : Nat} :
    (w.extractLsb' p n == 0#n) = false ↔ w.toNat / 2 ^ p % 2 ^ n ≠ 0 := by
  rw [beq_eq_false_iff_ne, Ne, extractLsb'_eq_zero_iff]

/-- A field of two bits is not zero where one of them is not. -/
theorem extractLsb'_two_beq_zero_eq_false (w : Word) (p : Nat) :
    (w.extractLsb' p 2 == 0#2) = false ↔ w.getLsbD (p + 1) = true ∨ w.getLsbD p = true := by
  have h1 : w.getLsbD (p + 1) = _ := getLsbD_of_extractLsb' (n := 2) rfl (by decide)
  have h0 : w.getLsbD (p + 0) = _ := getLsbD_of_extractLsb' (n := 2) rfl (by decide)
  rw [Nat.add_zero] at h0
  rw [h1, h0]
  generalize w.extractLsb' p 2 = c
  revert c
  decide

/-- The opcode, inst[15:12] (R84, R85). -/
def opcode (w : Word) : BitVec 4 := w.extractLsb' 12 4

theorem toNat_opcode (w : Word) : (opcode w).toNat = w.toNat / 4096 := by
  rw [opcode, BitVec.extractLsb'_toNat, Nat.shiftRight_eq_div_pow]
  omega

theorem opcode_eq_of_toNat {w : Word} {c : BitVec 4} (h : w.toNat / 4096 = c.toNat) : opcode w = c :=
  BitVec.eq_of_toNat_eq ((toNat_opcode w).trans h)

theorem getLsbD_of_opcode {w : Word} {c : BitVec 4} (h : opcode w = c) :
    w.getLsbD 15 = c.getLsbD 3 ∧ w.getLsbD 14 = c.getLsbD 2 ∧ w.getLsbD 13 = c.getLsbD 1 ∧
      w.getLsbD 12 = c.getLsbD 0 :=
  have h : w.extractLsb' 12 4 = c := h
  ⟨getLsbD_of_extractLsb' h (k := 3) (by decide), getLsbD_of_extractLsb' h (k := 2) (by decide),
    getLsbD_of_extractLsb' h (k := 1) (by decide), getLsbD_of_extractLsb' h (k := 0) (by decide)⟩

@[simp] theorem code_fieldDr (w : Word) : (fieldDr w).code = w.extractLsb' 9 3 := Reg.code_ofCode _
@[simp] theorem code_fieldSr1 (w : Word) : (fieldSr1 w).code = w.extractLsb' 6 3 := Reg.code_ofCode _
@[simp] theorem code_fieldSr2 (w : Word) : (fieldSr2 w).code = w.extractLsb' 0 3 := Reg.code_ofCode _

/-! ## A word from its fields -/

/-- Two adjacent fields of a word are one field. -/
theorem field_or_field (w : Word) {p m q n : Nat} (h : q = p + m) :
    field q (w.extractLsb' q n) ||| field p (w.extractLsb' p m) = field p (w.extractLsb' p (m + n)) := by
  subst h
  apply BitVec.eq_of_getLsbD_eq
  intro k hk
  simp only [BitVec.getLsbD_or, getLsbD_field, BitVec.getLsbD_extractLsb', hk, decide_true, Bool.true_and]
  by_cases hupper : p + m ≤ k
  · have hpos : p + m + (k - (p + m)) = p + (k - p) := by omega
    have hlen : k - (p + m) < n ↔ k - p < m + n := by omega
    simp [hupper, hpos, hlen, show p ≤ k by omega, show ¬ k - p < m by omega]
  · by_cases hlower : p ≤ k
    · have hlen : k - p < m ∧ k - p < m + n := by omega
      simp [hupper, hlen]
    · simp [hupper, hlower]

/-- A field of zeros is left out beside the field above it. -/
theorem field_above_zero {w : Word} {p m q n : Nat} (hz : w.extractLsb' p m = 0#m) (h : q = p + m) :
    field q (w.extractLsb' q n) = field p (w.extractLsb' p (m + n)) := by
  rw [← field_or_field w h, hz]
  simp [field]

/-- The field of all bits is the word. -/
theorem field_whole (w : Word) {n : Nat} (h : n = 16) : field 0 (w.extractLsb' 0 n) = w := by
  subst h
  simp [field]

end Sys2Proof
end

section
/-! SUPPORT. The formats of spec/30_encoding.md R82 and R84 as a relation, and the decoder and the encoder on a word
of each. Every statement about the words of a format goes through `WordFormat` and not through the decoder's
text. -/

namespace Sys2Proof

/-- The word has the format of the instruction, its opcode and selection bits (R84); the `Bool` says whether the
format's fixed bits hold (R98). The decoder's two names for an XOR and a JMP word are in `xorImmOrNot` and
`jmpOrRet` (R100). -/
inductive WordFormat (w : Word) : Instr → Bool → Prop where
  | br (h : opcode w = 0b0000#4) :
    WordFormat w (.br (w.getLsbD 11) (w.getLsbD 10) (w.getLsbD 9) (fieldPcOffset9 w)) true
  | addImm (h : opcode w = 0b0001#4) (h5 : w.getLsbD 5 = true) :
    WordFormat w (.addImm (fieldDr w) (fieldSr1 w) (fieldImm5 w)) true
  | addReg (h : opcode w = 0b0001#4) (h5 : w.getLsbD 5 = false) :
    WordFormat w (.addReg (fieldDr w) (fieldSr1 w) (fieldSr2 w)) (w.extractLsb' 3 2 == 0b00#2)
  | ldb (h : opcode w = 0b0010#4) : WordFormat w (.ldb (fieldDr w) (fieldSr1 w) (fieldOffset6 w)) true
  | stb (h : opcode w = 0b0011#4) : WordFormat w (.stb (fieldDr w) (fieldSr1 w) (fieldOffset6 w)) true
  | jsr (h : opcode w = 0b0100#4) (h11 : w.getLsbD 11 = true) : WordFormat w (.jsr (fieldPcOffset11 w)) true
  | jsrr (h : opcode w = 0b0100#4) (h11 : w.getLsbD 11 = false) :
    WordFormat w (.jsrr (fieldSr1 w)) (w.extractLsb' 9 2 == 0b00#2 && w.extractLsb' 0 6 == 0b000000#6)
  | andImm (h : opcode w = 0b0101#4) (h5 : w.getLsbD 5 = true) :
    WordFormat w (.andImm (fieldDr w) (fieldSr1 w) (fieldImm5 w)) true
  | andReg (h : opcode w = 0b0101#4) (h5 : w.getLsbD 5 = false) :
    WordFormat w (.andReg (fieldDr w) (fieldSr1 w) (fieldSr2 w)) (w.extractLsb' 3 2 == 0b00#2)
  | ldw (h : opcode w = 0b0110#4) : WordFormat w (.ldw (fieldDr w) (fieldSr1 w) (fieldOffset6 w)) true
  | stw (h : opcode w = 0b0111#4) : WordFormat w (.stw (fieldDr w) (fieldSr1 w) (fieldOffset6 w)) true
  | rti (h : opcode w = 0b1000#4) : WordFormat w .rti (w.extractLsb' 0 12 == 0b000000000000#12)
  | xorImm (h : opcode w = 0b1001#4) (h5 : w.getLsbD 5 = true) :
    WordFormat w (xorImmOrNot (fieldDr w) (fieldSr1 w) (fieldImm5 w)) true
  | xorReg (h : opcode w = 0b1001#4) (h5 : w.getLsbD 5 = false) :
    WordFormat w (.xorReg (fieldDr w) (fieldSr1 w) (fieldSr2 w)) (w.extractLsb' 3 2 == 0b00#2)
  | reserved1010 (h : opcode w = 0b1010#4) : WordFormat w (.reserved1010 (fieldLow12 w)) true
  | reserved1011 (h : opcode w = 0b1011#4) : WordFormat w (.reserved1011 (fieldLow12 w)) true
  | jmp (h : opcode w = 0b1100#4) :
    WordFormat w (jmpOrRet (fieldSr1 w)) (w.extractLsb' 9 3 == 0b000#3 && w.extractLsb' 0 6 == 0b000000#6)
  | lshf (h : opcode w = 0b1101#4) (h54 : w.extractLsb' 4 2 = 0b00#2) :
    WordFormat w (.lshf (fieldDr w) (fieldSr1 w) (fieldAmount4 w)) true
  | lshfAlt (h : opcode w = 0b1101#4) (h54 : w.extractLsb' 4 2 = 0b10#2) :
    WordFormat w (.lshfAlt (fieldDr w) (fieldSr1 w) (fieldAmount4 w)) true
  | rshfl (h : opcode w = 0b1101#4) (h54 : w.extractLsb' 4 2 = 0b01#2) :
    WordFormat w (.rshfl (fieldDr w) (fieldSr1 w) (fieldAmount4 w)) true
  | rshfa (h : opcode w = 0b1101#4) (h54 : w.extractLsb' 4 2 = 0b11#2) :
    WordFormat w (.rshfa (fieldDr w) (fieldSr1 w) (fieldAmount4 w)) true
  | lea (h : opcode w = 0b1110#4) : WordFormat w (.lea (fieldDr w) (fieldPcOffset9 w)) true
  | trap (h : opcode w = 0b1111#4) : WordFormat w (.trap (fieldTrapvect8 w)) (w.extractLsb' 8 4 == 0b0000#4)

/-- Every word has a format: the 16 opcodes, each with its selection bits (R84). -/
theorem exists_wordFormat (w : Word) : ∃ i fixed, WordFormat w i fixed := by
  match h : opcode w with
  | 0b0000#4 => exact ⟨_, _, .br h⟩
  | 0b0001#4 =>
    cases h5 : w.getLsbD 5 with
    | false => exact ⟨_, _, .addReg h h5⟩
    | true => exact ⟨_, _, .addImm h h5⟩
  | 0b0010#4 => exact ⟨_, _, .ldb h⟩
  | 0b0011#4 => exact ⟨_, _, .stb h⟩
  | 0b0100#4 =>
    cases h11 : w.getLsbD 11 with
    | false => exact ⟨_, _, .jsrr h h11⟩
    | true => exact ⟨_, _, .jsr h h11⟩
  | 0b0101#4 =>
    cases h5 : w.getLsbD 5 with
    | false => exact ⟨_, _, .andReg h h5⟩
    | true => exact ⟨_, _, .andImm h h5⟩
  | 0b0110#4 => exact ⟨_, _, .ldw h⟩
  | 0b0111#4 => exact ⟨_, _, .stw h⟩
  | 0b1000#4 => exact ⟨_, _, .rti h⟩
  | 0b1001#4 =>
    cases h5 : w.getLsbD 5 with
    | false => exact ⟨_, _, .xorReg h h5⟩
    | true => exact ⟨_, _, .xorImm h h5⟩
  | 0b1010#4 => exact ⟨_, _, .reserved1010 h⟩
  | 0b1011#4 => exact ⟨_, _, .reserved1011 h⟩
  | 0b1100#4 => exact ⟨_, _, .jmp h⟩
  | 0b1101#4 =>
    match h54 : w.extractLsb' 4 2 with
    | 0b00#2 => exact ⟨_, _, .lshf h h54⟩
    | 0b01#2 => exact ⟨_, _, .rshfl h h54⟩
    | 0b10#2 => exact ⟨_, _, .lshfAlt h h54⟩
    | 0b11#2 => exact ⟨_, _, .rshfa h h54⟩
    | ⟨⟨k + 4, hk⟩⟩ => omega
  | 0b1110#4 => exact ⟨_, _, .lea h⟩
  | 0b1111#4 => exact ⟨_, _, .trap h⟩
  | ⟨⟨k + 16, hk⟩⟩ => omega

/-- The decoder on a word of a format: the opcode's and the selection bits take it to the format's check. -/
theorem decodeWordWith_of_format {w : Word} {i : Instr} {fixed : Bool} (h : WordFormat w i fixed)
    (strict : Bool) : decodeWordWith strict w = checkFixed strict fixed w i := by
  cases h with
  | lshf h h54 | lshfAlt h h54 | rshfl h h54 | rshfa h h54 =>
    obtain ⟨h15, h14, h13, h12⟩ := getLsbD_of_opcode h
    have h4 := getLsbD_of_extractLsb' h54 (k := 0) (by decide)
    have h5 := getLsbD_of_extractLsb' h54 (k := 1) (by decide)
    rw [decodeWordWith, h15, h14, h13, h12, h5, h4]
    cases strict <;> rfl
  | addImm h hsel | addReg h hsel | andImm h hsel | andReg h hsel | xorImm h hsel | xorReg h hsel | jsr h hsel
  | jsrr h hsel =>
    obtain ⟨h15, h14, h13, h12⟩ := getLsbD_of_opcode h
    rw [decodeWordWith, h15, h14, h13, h12, hsel]
    cases strict <;> rfl
  | br h | ldb h | stb h | ldw h | stw h | rti h | reserved1010 h | reserved1011 h | jmp h | lea h | trap h =>
    obtain ⟨h15, h14, h13, h12⟩ := getLsbD_of_opcode h
    rw [decodeWordWith, h15, h14, h13, h12]
    cases strict <;> rfl

/-! ## The check of the fixed bits -/

@[simp] theorem checkFixed_of_hold (strict : Bool) (w : Word) (i : Instr) :
    checkFixed strict true w i = .instr i := by
  simp [checkFixed]

theorem checkFixed_strict_eq_instr {fixed : Bool} {w : Word} {i j : Instr} :
    checkFixed true fixed w i = .instr j ↔ fixed = true ∧ i = j := by
  cases fixed <;> simp [checkFixed]

theorem checkFixed_strict_eq_reservedEncoding {fixed : Bool} {w v : Word} {i : Instr} :
    checkFixed true fixed w i = .reservedEncoding v ↔ fixed = false ∧ w = v := by
  cases fixed <;> simp [checkFixed]

/-- The decoder with the decided value of `StrictReservedBits` (D3). -/
theorem decodeWord_of_format {w : Word} {i : Instr} {fixed : Bool} (h : WordFormat w i fixed) :
    decodeWord w = checkFixed true fixed w i := decodeWordWith_of_format h true

/-! ## The two words with two names (R100) -/

theorem encode_xorImmOrNot (dr sr1 : Reg) (imm5 : BitVec 5) :
    encode (xorImmOrNot dr sr1 imm5) = encode (.xorImm dr sr1 imm5) := by
  unfold xorImmOrNot
  split
  next h => subst h; rfl
  next => rfl

theorem wellFormed_xorImmOrNot (dr sr1 : Reg) (imm5 : BitVec 5) :
    (xorImmOrNot dr sr1 imm5).wellFormed = true := by
  unfold xorImmOrNot
  split
  next => rfl
  next h => exact bne_iff_ne.mpr h

theorem encode_jmpOrRet (baseR : Reg) : encode (jmpOrRet baseR) = encode (.jmp baseR) := by
  unfold jmpOrRet
  split
  next h => subst h; rfl
  next => rfl

theorem wellFormed_jmpOrRet (baseR : Reg) : (jmpOrRet baseR).wellFormed = true := by
  unfold jmpOrRet
  split
  next => rfl
  next h => exact bne_iff_ne.mpr h

/-! ## The encoder on the instruction of a format -/

theorem wellFormed_of_format {w : Word} {i : Instr} {fixed : Bool} (h : WordFormat w i fixed) :
    i.wellFormed = true := by
  cases h with
  | xorImm h h5 => exact wellFormed_xorImmOrNot ..
  | jmp h => exact wellFormed_jmpOrRet _
  | _ => rfl

/-- A word whose fixed bits hold is its instruction's word: the fields of the format are adjacent and make up the
word, with the fixed zeros the encoder leaves out. -/
theorem encode_of_format {w : Word} {i : Instr} {fixed : Bool} (h : WordFormat w i fixed) (hf : fixed = true) :
    encode i = w := by
  cases h with
  | br h =>
    simp only [encode, flagAt, ← h, opcode, ← extractLsb'_one, fieldPcOffset9, field_or_field, field_whole]
  | ldb h | stb h | ldw h | stw h =>
    simp only [encode, ← h, opcode, code_fieldDr, code_fieldSr1, fieldOffset6, field_or_field, field_whole]
  | lea h => simp only [encode, ← h, opcode, code_fieldDr, fieldPcOffset9, field_or_field, field_whole]
  | reserved1010 h | reserved1011 h =>
    simp only [encode, ← h, opcode, fieldLow12, field_or_field, field_whole]
  | addImm h h5 | andImm h h5 =>
    have h5 : w.extractLsb' 5 1 = 0b1#1 := extractLsb'_one_of_getLsbD h5
    simp only [encode, ← h, ← h5, opcode, code_fieldDr, code_fieldSr1, fieldImm5, field_or_field, field_whole]
  | xorImm h h5 =>
    have h5 : w.extractLsb' 5 1 = 0b1#1 := extractLsb'_one_of_getLsbD h5
    rw [encode_xorImmOrNot]
    simp only [encode, ← h, ← h5, opcode, code_fieldDr, code_fieldSr1, fieldImm5, field_or_field, field_whole]
  | addReg h h5 | andReg h h5 | xorReg h h5 =>
    have h5 : w.extractLsb' 5 1 = 0#1 := extractLsb'_one_of_getLsbD h5
    have h43 : w.extractLsb' 3 2 = 0#2 := eq_of_beq hf
    simp only [encode, ← h, opcode, code_fieldDr, code_fieldSr1, code_fieldSr2,
      field_above_zero h5 (q := 6), field_above_zero h43 (q := 5), field_or_field, field_whole]
  | lshf h h54 =>
    simp only [encode, ← h, opcode, code_fieldDr, code_fieldSr1, fieldAmount4,
      field_above_zero h54 (q := 6), field_or_field, field_whole]
  | lshfAlt h h54 | rshfl h h54 | rshfa h h54 =>
    simp only [encode, ← h, ← h54, opcode, code_fieldDr, code_fieldSr1, fieldAmount4, field_or_field, field_whole]
  | jsr h h11 =>
    have h11 : w.extractLsb' 11 1 = 0b1#1 := extractLsb'_one_of_getLsbD h11
    simp only [encode, ← h, ← h11, opcode, fieldPcOffset11, field_or_field, field_whole]
  | jsrr h h11 =>
    have h11 : w.extractLsb' 11 1 = 0#1 := extractLsb'_one_of_getLsbD h11
    obtain ⟨h109, h50⟩ := (Bool.and_eq_true_iff.mp hf).imp eq_of_beq eq_of_beq
    simp only [encode, ← h, opcode, code_fieldSr1, field_above_zero h11 (q := 12),
      field_above_zero h109 (q := 11), field_above_zero h50 (q := 6), field_or_field, field_whole]
  | jmp h =>
    obtain ⟨h119, h50⟩ := (Bool.and_eq_true_iff.mp hf).imp eq_of_beq eq_of_beq
    rw [encode_jmpOrRet]
    simp only [encode, ← h, opcode, code_fieldSr1, field_above_zero h119 (q := 12),
      field_above_zero h50 (q := 6), field_or_field, field_whole]
  | rti h =>
    have h110 : w.extractLsb' 0 12 = 0#12 := eq_of_beq hf
    simp only [encode, ← h, opcode, field_above_zero h110 (q := 12), field_whole]
  | trap h =>
    have h118 : w.extractLsb' 8 4 = 0#4 := eq_of_beq hf
    simp only [encode, ← h, opcode, fieldTrapvect8, field_above_zero h118 (q := 12), field_or_field, field_whole]

/-! ## The decoder on the word of an instruction -/

/-- The decoder, strict or not, reads back a well-formed instruction: each bit it looks at lies in one field of the
word or in none. -/
theorem decodeWordWith_encode (strict : Bool) {i : Instr} (h : i.wellFormed = true) :
    decodeWordWith strict (encode i) = .instr i := by
  cases i with
  | xorImm dr sr1 imm5 =>
    have hne : imm5 ≠ 0b11111#5 := bne_iff_ne.mp h
    simp [decodeWordWith, encode, getElem_field, BitVec.extractLsb'_or, fieldDr, fieldSr1, fieldImm5,
      xorImmOrNot, hne]
  | jmp baseR =>
    have hne : baseR ≠ .r7 := bne_iff_ne.mp h
    simp [decodeWordWith, encode, getElem_field, BitVec.extractLsb'_or, fieldSr1, jmpOrRet, hne]
  | ret => cases strict <;> decide
  | _ =>
    simp [decodeWordWith, encode, flagAt, getElem_field, BitVec.extractLsb'_or, fieldDr, fieldSr1, fieldSr2,
      fieldImm5, fieldAmount4, fieldOffset6, fieldPcOffset9, fieldPcOffset11, fieldTrapvect8, fieldLow12,
      xorImmOrNot]

end Sys2Proof
end

section
/-! SUPPORT. The words below x0200, and the operand values as integers (spec/30_encoding.md R90 to R96). -/

namespace Sys2Proof.Machine

/-- A word below x0200 is a BR that tests no code (R101). -/
theorem decodeWord_of_lt {w : Word} (h : w.toNat < 0x200) :
    decodeWord w = .instr (.br false false false (fieldPcOffset9 w)) := by
  have hbit : ∀ k, w.getLsbD (9 + k) = false := (BitVec.toNat_lt_iff_getLsbD_eq_false 9 (by decide)).mp h
  have hop : opcode w = 0b0000#4 := opcode_eq_of_toNat (show _ = 0 by omega)
  have hdec := decodeWord_of_format (.br hop)
  rwa [checkFixed_of_hold, show w.getLsbD 11 = false from hbit 2, show w.getLsbD 10 = false from hbit 1,
    show w.getLsbD 9 = false from hbit 0] at hdec

/-- A signed field: its value and range (R90, R92). -/
theorem toInt_sext16 {n : Nat} (f : BitVec (n + 1)) (hn : n < 16) :
    (sext16 f).toInt = f.toInt ∧ -2 ^ n ≤ (sext16 f).toInt ∧ (sext16 f).toInt ≤ 2 ^ n - 1 := by
  have hvalue : (sext16 f).toInt = f.toInt := BitVec.toInt_signExtend_of_le hn
  rw [hvalue]
  exact ⟨rfl, f.le_toInt, Int.le_sub_one_of_lt f.toInt_lt⟩

/-- A count of words: twice the signed field, and its range, which fits in 16 bits (R93 to R95). -/
theorem toInt_lshf_sext16 {n : Nat} (f : BitVec (n + 1)) (hn : n < 15) :
    (lshf (sext16 f) 1).toInt = 2 * f.toInt ∧
      2 * -2 ^ n ≤ (lshf (sext16 f) 1).toInt ∧ (lshf (sext16 f) 1).toInt ≤ 2 * (2 ^ n - 1) := by
  obtain ⟨hvalue, hlo, hhi⟩ := toInt_sext16 f (Nat.lt_succ_of_lt hn)
  rw [hvalue] at hlo hhi
  have hpow : (2 : Int) ^ n ≤ 2 ^ 14 := pow_le_pow_right₀ (by decide) (Nat.le_of_lt_succ hn)
  have htwice : (lshf (sext16 f) 1).toInt = 2 * f.toInt := by
    rw [BitVec.toInt_eq_toNat_bmod, toNat_lshf_sext16_emod, show (65536 : Int) = (2 ^ 16 : Nat) from rfl,
      Int.emod_bmod]
    exact Int.bmod_eq_of_le_mul_two (by omega) (by omega)
  rw [htwice]
  exact ⟨rfl, by omega, by omega⟩

end Sys2Proof.Machine
end

section
/-! The statements of spec/30_encoding.md. -/

namespace Sys2Proof.Machine

/-- Settles O1: the decoder on the bytes of a word reads the word. -/
theorem decodeOfEncodeIsTheInstruction : Obligations.DecodeOfEncodeIsTheInstruction := by
  intro i hi
  have hdec : decodeWord (encode i) = .instr i := decodeWordWith_encode true hi
  exact ⟨hdec, fun rest => by rw [decodeBytes_bytes, hdec]⟩

/-- Settles O2: a word that decodes to an instruction has its format, and the fixed bits hold. -/
theorem encodeOfDecodeIsTheWord : Obligations.EncodeOfDecodeIsTheWord := by
  intro w i hdec
  obtain ⟨j, fixed, hw⟩ := exists_wordFormat w
  rw [decodeWord_of_format hw] at hdec
  obtain ⟨hfixed, rfl⟩ := checkFixed_strict_eq_instr.mp hdec
  exact ⟨wellFormed_of_format hw, encode_of_format hw hfixed⟩

/-- Settles O4: both decoders read the format of the word, and differ where its fixed bits do not hold. -/
theorem lenientDecodingExtendsStrictDecoding : Obligations.LenientDecodingExtendsStrictDecoding := by
  intro w
  obtain ⟨i, fixed, hw⟩ := exists_wordFormat w
  refine ⟨i, decodeWordWith_of_format hw false, ?_⟩
  rw [decodeWordWith_of_format hw true, checkFixed_strict_eq_instr, checkFixed_strict_eq_reservedEncoding]
  cases fixed
  · exact .inr ⟨rfl, rfl⟩
  · exact .inl ⟨rfl, rfl⟩

/-- Settles O3, format by format: the opcode picks the clause. -/
theorem reservedEncodingsAreTheFixedBitMismatches : Obligations.ReservedEncodingsAreTheFixedBitMismatches := by
  intro w
  obtain ⟨i, fixed, hw⟩ := exists_wordFormat w
  simp only [decodeWord_of_format hw, checkFixed_strict_eq_reservedEncoding, and_true, ← toNat_opcode]
  refine ⟨fun v hv => hv.2.symm, ?_⟩
  cases hw with
  | addReg h h5 | andReg h h5 | xorReg h h5 =>
    rw [extractLsb'_two_beq_zero_eq_false, h, h5]
    simp
  | jmp h =>
    rw [Bool.and_eq_false_iff, extractLsb'_beq_zero_eq_false, extractLsb'_beq_zero_eq_false, h]
    simp
  | jsrr h h11 =>
    rw [Bool.and_eq_false_iff, extractLsb'_beq_zero_eq_false, extractLsb'_beq_zero_eq_false, h, h11]
    simp
  | rti h | trap h =>
    rw [extractLsb'_beq_zero_eq_false, h]
    simp
  | addImm h hsel | andImm h hsel | xorImm h hsel | jsr h hsel => simp [h, hsel]
  | br h | ldb h | stb h | ldw h | stw h | reserved1010 h | reserved1011 h | lea h => simp [h]
  | lshf h h54 | lshfAlt h h54 | rshfl h h54 | rshfa h h54 => simp [h]

/-- Settles O7: the word is the one the instruction carries. -/
theorem reservedOpcodesFault : Obligations.ReservedOpcodesFault := by
  refine fun w => ⟨fun hlo hhi => ?_, fun hlo hhi => ?_⟩
  · have hw : WordFormat w _ true := .reserved1010 (opcode_eq_of_toNat (show _ = 10 by omega))
    refine ⟨_, decodeWord_of_format hw, fun s => ?_⟩
    rw [exec, execReserved1010, encode_of_format hw rfl]
    rfl
  · have hw : WordFormat w _ true := .reserved1011 (opcode_eq_of_toNat (show _ = 11 by omega))
    refine ⟨_, decodeWord_of_format hw, fun s => ?_⟩
    rw [exec, execReserved1011, encode_of_format hw rfl]
    rfl

/-- Settles O28: a BR that tests no code leaves the state of the incremented PC. -/
theorem brTestingNothingIsANoOperation : Obligations.BrTestingNothingIsANoOperation := by
  intro s hf ho ha hw
  rw [step_of_fetches_storage hf ho ha, decodeWord_of_lt (by rwa [toNat_storageWord]), ← deviceBoundary_pc]
  rfl

/-- Settles O5: the words are computed. -/
theorem printedExampleWordsDecode : Obligations.PrintedExampleWordsDecode := by
  unfold Obligations.PrintedExampleWordsDecode
  decide

/-- Settles O6: XOR with 16 ones is the complement. -/
theorem notIsXorAndRetIsJmp : Obligations.NotIsXorAndRetIsJmp := by
  refine ⟨fun dr sr => rfl, rfl, by decide, fun dr sr s => ?_, fun s => rfl⟩
  have hones : imm5Value 0b11111 = BitVec.allOnes 16 := by decide
  simp only [exec, execNot, execXorImm, hones, BitVec.xor_allOnes]

/-- Settles O10, from the value and the range of a signed field and of a count of words; the other two fields are
unsigned. -/
theorem operandFieldValues : Obligations.OperandFieldValues := by
  refine ⟨fun f => toInt_sext16 f (by decide), fun f => ⟨rfl, Nat.le_of_lt_succ f.isLt⟩,
    fun f => toInt_sext16 f (by decide), fun f => toInt_lshf_sext16 f (by decide),
    fun f => toInt_lshf_sext16 f (by decide), fun f => toInt_lshf_sext16 f (by decide), fun f => ?_⟩
  rw [trapVectorAddress, toNat_lshf, toNat_zext16 f (by decide)]
  omega

end Sys2Proof.Machine
end

section
/-! SUPPORT. The bits of an extension and of a right shift (spec/00_scope.md R12, R13), and an instruction that
does no more than write a result to DR (spec/40_operate.md R121). -/

namespace Sys2Proof.Machine

/-- Above the field every bit is the field's top bit (R12). -/
theorem getLsbD_sext16 {n k : Nat} (x : BitVec (n + 1)) (hk : k < 16) :
    (sext16 x).getLsbD k = x.getLsbD (min k n) := by
  rw [sext16, BitVec.getLsbD_signExtend, decide_eq_true hk, Bool.true_and]
  split
  case isTrue h => rw [Nat.min_eq_left (Nat.le_of_lt_succ h)]
  case isFalse h => rw [Nat.min_eq_right (by omega), BitVec.msb_eq_getLsbD_last, Nat.add_sub_cancel]

/-- The bits move down, and the vacated positions are filled with `fill` (R13). -/
theorem getLsbD_rshf {k : Nat} (a : Word) (b : Nat) (fill : Bool) (hk : k < 16) :
    (rshf a b fill).getLsbD k = if b + k < 16 then a.getLsbD (b + k) else fill := by
  have hfill : ((if fill then BitVec.allOnes 16 <<< (16 - b) else 0) : Word).getLsbD k =
      (fill && decide (16 - b ≤ k)) := by
    cases fill with
    | false => exact BitVec.getLsbD_zero
    | true =>
      have hlow : k - (16 - b) < 16 := by omega
      rw [if_pos rfl, BitVec.getLsbD_shiftLeft, BitVec.getLsbD_allOnes, decide_eq_true hk, decide_eq_true hlow]
      simp only [Bool.true_and, Bool.and_true, ← decide_not, Nat.not_lt]
  rw [rshf, BitVec.getLsbD_or, BitVec.getLsbD_ushiftRight, hfill]
  split
  case isTrue h => rw [decide_eq_false (by omega), Bool.and_false, Bool.or_false]
  case isFalse h =>
    rw [decide_eq_true (by omega), Bool.and_true, BitVec.getLsbD_of_ge _ _ (by omega), Bool.false_or]

/-- A right shift that fills with the sign is the arithmetic shift (R119). -/
theorem rshf_sign (a : Word) (b : Nat) : rshf a b (a.getLsbD 15) = a.sshiftRight b := by
  apply BitVec.eq_of_getLsbD_eq
  intro k hk
  rw [getLsbD_rshf a b _ hk, BitVec.getLsbD_sshiftRight, decide_eq_false (Nat.not_le.mpr hk),
    BitVec.msb_eq_getLsbD_last]
  exact (Bool.true_and _).symm

/-- The arithmetic shift divides the signed value, rounding toward minus infinity (R119). -/
theorem toInt_rshf_sign (a : Word) (b : Nat) :
    (rshf a b (a.getLsbD 15)).toInt = Int.fdiv a.toInt (2 ^ b) := by
  rw [rshf_sign, BitVec.toInt_sshiftRight, Int.shiftRight_eq_div_pow,
    Int.fdiv_eq_ediv_of_nonneg _ (Int.pow_nonneg (by decide))]
  rfl

/-- An instruction that writes `v` to DR and the codes from it completes, keeps the frame, and has every property
that follows from DR being `v` (R121). -/
theorem exec_writesDr {i : Instr} {dr : Reg} {v : Word} {s : State} {P : State → Prop}
    (he : exec i s = .next (writeDr dr v s)) (hP : ∀ t : State, t.reg dr = v → P t) :
    ∃ t, exec i s = .next t ∧ P t ∧ WritesOnlyDrAndCodes dr s t := by
  obtain ⟨hdr, hframe⟩ := writeDr_spec s dr v
  exact ⟨_, he, hP _ hdr, hframe⟩

end Sys2Proof.Machine
end

section
/-! The statements of spec/40_operate.md. -/

namespace Sys2Proof.Machine

/-- Settles O19: the sum of words is the sum modulo 2^16 of what they stand for. -/
theorem addWritesTheSum : Obligations.AddWritesTheSum := by
  refine fun s dr sr1 => ⟨fun sr2 => exec_writesDr rfl fun t ht => ?_,
    fun imm5 => exec_writesDr rfl fun t ht => ?_⟩
  · rw [ht]
    exact BitVec.toNat_add ..
  · rw [ht]
    exact toNat_add_emod _ (toNat_sext16_emod imm5)

/-- Settles O20, bit by bit; the immediate is a sign-extended field. -/
theorem andWritesTheConjunction : Obligations.AndWritesTheConjunction := by
  refine fun s dr sr1 => ⟨fun sr2 => exec_writesDr rfl fun t ht k _ => ?_,
    fun imm5 => exec_writesDr rfl fun t ht k hk => ?_⟩
  · rw [ht, BitVec.getLsbD_and]
  · rw [ht, BitVec.getLsbD_and, imm5Value, getLsbD_sext16 imm5 hk]

/-- Settles O21, bit by bit; the immediate is a sign-extended field. -/
theorem xorAndNotComplementBits : Obligations.XorAndNotComplementBits := by
  refine fun s dr sr1 => ⟨fun sr2 => exec_writesDr rfl fun t ht k _ => ?_,
    fun imm5 => exec_writesDr rfl fun t ht k hk => ?_, exec_writesDr rfl fun t ht k hk => ?_⟩
  · rw [ht, BitVec.getLsbD_xor]
  · rw [ht, BitVec.getLsbD_xor, imm5Value, getLsbD_sext16 imm5 hk]
  · rw [ht, BitVec.getLsbD_not, decide_eq_true hk, Bool.true_and]

/-- Settles O22: both words shift by the same formula. -/
theorem leftShiftsMultiply : Obligations.LeftShiftsMultiply := by
  intro s dr sr k
  have hvalue : ∀ t : State, t.reg dr = lshf (s.reg sr) k.toNat →
      (t.reg dr).toNat = (s.reg sr).toNat * 2 ^ k.toNat % 65536 := fun t ht => by
    rw [ht]
    exact toNat_lshf ..
  exact ⟨exec_writesDr rfl hvalue, exec_writesDr rfl hvalue⟩

/-- Settles O23: with 0 for the fill, only the quotient is left of R13's formula. -/
theorem logicalRightShiftDivides : Obligations.LogicalRightShiftDivides := by
  refine fun s dr sr k => exec_writesDr rfl fun t ht => ?_
  rw [ht]
  exact toNat_rshf (s.reg sr) false (Nat.le_of_lt k.isLt)

/-- Settles O24: the fill is the sign, so the shift is the arithmetic one. -/
theorem arithmeticRightShiftFloors : Obligations.ArithmeticRightShiftFloors :=
  fun s dr sr k => exec_writesDr rfl fun t ht => by rw [ht]; exact toInt_rshf_sign _ _

end Sys2Proof.Machine
end

section
/-! SUPPORT. What the control instructions do by case: the checked jump and the linking jump on an even and on an
odd target, the target of JSRR, the decision of BR (spec/41_control.md R130 to R137). -/

namespace Sys2Proof.Machine

/-! ## Jumps -/

/-- A checked jump to an even target completes and writes the PC alone (R134). -/
theorem jumpTo_even {x : Word} (s : State) (hx : isOdd x = false) :
    ∃ t, jumpTo x s = .next t ∧ t.pc = x ∧ WritesOnlyPcAnd [] s t :=
  ⟨{ s with pc := x }, by simp [jumpTo, hx], rfl, writesOnlyPcAnd_pc s x⟩

/-- A checked jump to an odd target raises (R176, D1). -/
theorem jumpTo_odd {x : Word} (s : State) (hx : isOdd x = true) :
    jumpTo x s = .fault (.illegalOperandAddress x (s.pc - 2)) :=
  if_pos hx

/-- A linking jump to an even target completes and writes R7 and the PC alone (R137, R160). -/
theorem linkAndJumpTo_even {x : Word} (s : State) (hx : isOdd x = false) :
    ∃ t, linkAndJumpTo x s = .next t ∧ t.reg .r7 = s.pc ∧ t.pc = x ∧ WritesOnlyPcAnd [.r7] s t :=
  ⟨{ s.setReg .r7 s.pc with pc := x }, by simp [linkAndJumpTo, hx], link_reg_r7 s s.pc x, rfl,
    writesOnlyPcAnd_link s s.pc x⟩

/-- A linking jump to an odd target raises, before the link (R176, D1). -/
theorem linkAndJumpTo_odd {x : Word} (s : State) (hx : isOdd x = true) :
    linkAndJumpTo x s = .fault (.illegalOperandAddress x (s.pc - 2)) :=
  if_pos hx

/-- The link does not reach a base register other than R7. -/
theorem jsrrTarget_other {b : Reg} (s : State) (hb : b ≠ .r7) : jsrrTarget b s = s.reg b :=
  reg_setReg_other s .r7 s.pc hb

/-- JSRR R7 reads the link just written (D19). -/
theorem jsrrTarget_r7 (s : State) : jsrrTarget .r7 s = s.pc :=
  reg_setReg_same s .r7 s.pc

/-! ## Branches -/

/-- The branch is taken if a tested code is 1 (R130). -/
theorem branchTaken_iff {n z p : Bool} {s : State} : branchTaken n z p s = true ↔
    (n = true ∧ s.n = true) ∨ (z = true ∧ s.z = true) ∨ (p = true ∧ s.p = true) := by
  simp only [branchTaken, Bool.or_eq_true, Bool.and_eq_true, or_assoc]

/-- BR always completes, in one of two states (R130). -/
theorem exec_br (n z p : Bool) (f : BitVec 9) (s : State) : exec (.br n z p f) s =
    .next (if branchTaken n z p s then { s with pc := pcRelative9 f s } else s) :=
  (apply_ite Host.Outcome.next _ _ _).symm

end Sys2Proof.Machine
end

section
/-! The statements of spec/41_control.md. -/

namespace Sys2Proof.Machine

/-- Settles O26, by whether the branch is taken; the target is an effective address of O11. -/
theorem brBranchesOnATestedCode : Obligations.BrBranchesOnATestedCode := by
  intro s n z p f
  obtain ⟨-, -, htarget, -⟩ := effectiveAddressesWrap s
  rw [exec_br, ← branchTaken_iff]
  refine ⟨_, rfl, ?_⟩
  by_cases htaken : branchTaken n z p s = true
  · rw [if_pos htaken]
    exact ⟨writesOnlyPcAnd_pc s _, fun _ => (htarget f).1, fun h => absurd htaken h⟩
  · rw [if_neg htaken]
    exact ⟨writesOnlyPcAnd_pc s s.pc, fun h => absurd h htaken, fun _ => rfl⟩

/-- Settles O30: JSR makes no check, and its target is an effective address of O11. -/
theorem jsrLinksAndBranches : Obligations.JsrLinksAndBranches := by
  intro s f
  obtain ⟨-, -, -, htarget⟩ := effectiveAddressesWrap s
  exact ⟨{ s.setReg .r7 s.pc with pc := pcRelative11 f s }, rfl, link_reg_r7 s s.pc _, (htarget f).1,
    writesOnlyPcAnd_link s s.pc _⟩

/-- Settles O31: a linking jump to the target of JSRR, which is BaseR, or the link for JSRR R7. -/
theorem jsrrLinksAndJumps : Obligations.JsrrLinksAndJumps := by
  intro s
  have hexec : ∀ b, exec (.jsrr b) s = linkAndJumpTo (jsrrTarget b s) s := fun _ => rfl
  refine ⟨fun b hb heven => ?_, fun b hb hodd => ?_, fun heven => ?_⟩
  · rw [hexec, jsrrTarget_other s hb]
    exact linkAndJumpTo_even s heven
  · rw [hexec, jsrrTarget_other s hb]
    exact linkAndJumpTo_odd s hodd
  · rw [hexec, jsrrTarget_r7]
    exact linkAndJumpTo_even s heven

/-- Settles O27: where one code alone is 1, the branch is taken exactly when that code is tested. -/
theorem brDecisionTable : Obligations.BrDecisionTable := by
  refine fun s => ⟨fun hn hz hp z p => ?_, fun hn hz hp n p => ?_, fun hn hz hp n z => ?_,
    fun n z p f => exec_br n z p f s⟩
  · have htaken : ∀ n, branchTaken n z p s = n := by simp [branchTaken, hn, hz, hp]
    exact ⟨htaken false, htaken true⟩
  · have htaken : ∀ z, branchTaken n z p s = z := by simp [branchTaken, hn, hz, hp]
    exact ⟨htaken false, htaken true⟩
  · have htaken : ∀ p, branchTaken n z p s = p := by simp [branchTaken, hn, hz, hp]
    exact ⟨htaken false, htaken true⟩

/-- Settles O29: JMP is a checked jump to the base register's value, and RET is JMP R7. -/
theorem jmpAndRetGoToAnEvenAddress : Obligations.JmpAndRetGoToAnEvenAddress := fun s _ =>
  ⟨jumpTo_even s, jumpTo_odd s, jumpTo_even s, jumpTo_odd s⟩

end Sys2Proof.Machine
end

section
/-! SUPPORT. The value of a word's bytes, and LDW and STW by the parity of the base register
(spec/42_load_store.md R147, R151, R155). -/

namespace Sys2Proof.Machine

/-- The byte at the lower address is the word modulo 256 (R52). -/
theorem toNat_lowByte (w : Word) : (lowByte w).toNat = w.toNat % 256 :=
  BitVec.extractLsb'_toNat ..

/-- The byte at the higher address is the word divided by 256 (R52). -/
theorem toNat_highByte (w : Word) : (highByte w).toNat = w.toNat / 256 := by
  rw [highByte, BitVec.extractLsb'_toNat, Nat.shiftRight_eq_div_pow]
  exact Nat.mod_eq_of_lt (Nat.div_lt_of_lt_mul w.isLt)

section base
variable {b : Reg} {s : State} (f : BitVec 6)

/-- An even base goes on to the access (R147). -/
theorem exec_ldw_even (dr : Reg) (hb : isOdd (s.reg b) = false) : exec (.ldw dr b f) s =
    (readWord (wordAddress b f s) s).andThen fun v s' => .next (writeDr dr v s') :=
  if_neg (ne_true_of_eq_false hb)

/-- An odd base raises, whatever the address (R176, D1, D24). -/
theorem exec_ldw_odd (dr : Reg) (hb : isOdd (s.reg b) = true) : exec (.ldw dr b f) s =
    .fault (.illegalOperandAddress (s.reg b) (s.pc - 2)) :=
  if_pos hb

/-- An even base goes on to the access (R151). -/
theorem exec_stw_even (sr : Reg) (hb : isOdd (s.reg b) = false) : exec (.stw sr b f) s =
    writeWord (wordAddress b f s) (s.reg sr) s :=
  if_neg (ne_true_of_eq_false hb)

/-- An odd base raises, whatever the address (R176, D1, D24). -/
theorem exec_stw_odd (sr : Reg) (hb : isOdd (s.reg b) = true) : exec (.stw sr b f) s =
    .fault (.illegalOperandAddress (s.reg b) (s.pc - 2)) :=
  if_pos hb

/-- An even base gives LDW and STW an even address (R61). -/
theorem isOdd_wordAddress_of_even (hb : isOdd (s.reg b) = false) : isOdd (wordAddress b f s) = false :=
  (isOdd_wordAddress b f s).trans hb

end base

end Sys2Proof.Machine
end

section
/-! The statements of spec/42_load_store.md. -/

namespace Sys2Proof.Machine

/-- Settles O25: LEA writes an effective address of O11 to DR. -/
theorem leaWritesTheAddress : Obligations.LeaWritesTheAddress := by
  intro s dr f
  obtain ⟨-, -, haddress, -⟩ := effectiveAddressesWrap s
  refine exec_writesDr rfl fun t ht => ?_
  rw [ht]
  exact (haddress f).1

/-- Settles O32, by what a byte read does in storage and in the device region; a sign-extended byte keeps its
integer. -/
theorem ldbLoadsASignedByte : Obligations.LdbLoadsASignedByte := by
  intro s dr b f a
  have hexec : exec (.ldb dr b f) s =
      (readByte a s).andThen fun v s' => .next (writeDr dr (sext16 v) s') := rfl
  refine ⟨fun ha => ?_, fun ha => ?_⟩
  · rw [readByte_storage s ha, andThen_value] at hexec
    refine exec_writesDr hexec fun t ht => ?_
    rw [ht]
    exact (toInt_sext16 _ (by decide)).1
  · rw [hexec, readByte_device s (inDeviceRegion_true.mpr ha), andThen_refused]

/-- Settles O33, by the parity of the base; an even one gives an even address, whose word access is that of O45. -/
theorem ldwLoadsAWord : Obligations.LdwLoadsAWord := by
  intro s dr b f a
  refine ⟨fun hb ha => ?_, exec_ldw_odd f dr, fun hb hlo hhi => ?_⟩
  · have hexec := exec_ldw_even f dr hb
    rw [readWord_storage s (isOdd_wordAddress_of_even f hb) ha, andThen_value] at hexec
    refine exec_writesDr hexec fun t ht => ?_
    rw [ht]
    exact toNat_storageWord s a.toNat
  · obtain ⟨-, -, hunassigned⟩ := wordAccesses s a 0 (isOdd_wordAddress_of_even f hb)
    rw [exec_ldw_even f dr hb, (hunassigned hlo hhi).1, andThen_refused]

/-- Settles O35, by what a byte write does in storage and in the device region. -/
theorem stbStoresTheLowByte : Obligations.StbStoresTheLowByte := by
  intro s sr b f a
  have hexec : exec (.stb sr b f) s = writeByte a (lowByte (s.reg sr)) s := rfl
  refine ⟨fun ha => ?_, fun ha => ?_⟩
  · refine ⟨_, hexec.trans (writeByte_storage _ s ha), ?_, writesOnlyStorage_byte s _ _⟩
    rw [storeByte_mem, read_write_same, toNat_lowByte]
  · exact hexec.trans (writeByte_device _ s (inDeviceRegion_true.mpr ha))

/-- Settles O36, by the parity of the base; an even one gives an even address, whose word access is that of O45. -/
theorem stwStoresAWord : Obligations.StwStoresAWord := by
  intro s sr b f a
  refine ⟨fun hb ha => ?_, exec_stw_odd f sr, fun hb hlo hhi => ?_⟩
  · have hstore := writeWord_storage (s.reg sr) s (isOdd_wordAddress_of_even f hb) ha
    refine ⟨_, (exec_stw_even f sr hb).trans hstore, ?_, ?_, writesOnlyStorage_word s _ _⟩
    · rw [read_storeWord_low, toNat_lowByte]
    · rw [read_storeWord_high, toNat_highByte]
  · obtain ⟨-, -, hunassigned⟩ := wordAccesses s a (s.reg sr) (isOdd_wordAddress_of_even f hb)
    exact (exec_stw_even f sr hb).trans (hunassigned hlo hhi).2

end Sys2Proof.Machine
end

section
/-! SUPPORT. The parity of a word in storage, TRAP's entry of the vector table, and RTI in supervisor mode by its
checks and its two reads in their order (spec/43_system.md R160, R163; spec/60_exceptions.md R182). -/

namespace Sys2Proof.Machine

/-! ## Words in storage -/

theorem isOdd_storageWord (s : State) (a : Nat) : isOdd (storageWord s.mem a) = decide (wordAt s a % 2 = 1) := by
  rw [isOdd_eq, toNat_storageWord]

/-- A word in storage is its unsigned value, which needs no reduction. -/
theorem storageWord_eq_ofNat (s : State) (a : Nat) : storageWord s.mem a = BitVec.ofNat 16 (wordAt s a) := by
  rw [← toNat_storageWord, BitVec.ofNat_toNat, BitVec.setWidth_eq]

/-! ## TRAP -/

/-- The trap vector table is in storage at even addresses, so TRAP is a linking jump to its entry (R160). -/
theorem exec_trap (v : BitVec 8) (s : State) :
    exec (.trap v) s = linkAndJumpTo (storageWord s.mem (2 * v.toNat)) s := by
  obtain ⟨-, -, -, -, -, -, haddress⟩ := operandFieldValues
  obtain ⟨hvalue, hle⟩ := haddress v
  have hread := readWord_storage s (isOdd_lshf_one (zext16 v)) (hle.trans_lt (by decide))
  rw [exec, execTrap, trapVectorAddress, hread, andThen_value, ← trapVectorAddress, hvalue]

/-! ## RTI in supervisor mode -/

section supervisor
variable {s : State} (hp : s.priv = .supervisor)
include hp

/-- An odd stack pointer raises before any read (D15, D24). -/
theorem exec_rti_odd_ssp (ho : isOdd s.ssp = true) :
    exec .rti s = .fault (.illegalOperandAddress s.ssp (s.pc - 2)) := by
  rw [exec, execRti, returnFromInterrupt, hp]
  exact if_pos ho

variable (ho : isOdd s.ssp = false)
include ho

/-- From an even stack pointer RTI goes on to its reads, the popped PC checked between them (R163, D24). -/
theorem exec_rti_even_ssp : exec .rti s = (readWord s.ssp s).andThen fun npc s1 =>
    if isOdd npc then raiseAtInstr (.illegalOperandAddress npc) s
    else (readWord (s.ssp + 2) s1).andThen fun temp s2 =>
      .next (loadPsr temp { s2 with pc := npc, ssp := s.ssp + 4 }) := by
  rw [exec, execRti, returnFromInterrupt, hp]
  exact if_neg (ne_true_of_eq_false ho)

/-- A refused first read is a refused RTI (R60). -/
theorem exec_rti_refused_pc {r : Refusal} (h1 : readWord s.ssp s = .refused r) : exec .rti s = .refused r := by
  rw [exec_rti_even_ssp hp ho, h1, andThen_refused]

variable {s1 : State} {npc : Word} (h1 : readWord s.ssp s = .value npc s1)
include h1

/-- An odd popped PC raises before the second read (D15, D24). -/
theorem exec_rti_odd_pc (hn : isOdd npc = true) :
    exec .rti s = .fault (.illegalOperandAddress npc (s.pc - 2)) := by
  rw [exec_rti_even_ssp hp ho, h1, andThen_value]
  exact if_pos hn

/-- A refused second read is a refused RTI (R60). -/
theorem exec_rti_refused_psr {r : Refusal} (hn : isOdd npc = false)
    (h2 : readWord (s.ssp + 2) s1 = .refused r) : exec .rti s = .refused r := by
  rw [exec_rti_even_ssp hp ho, h1, andThen_value, if_neg (ne_true_of_eq_false hn), h2, andThen_refused]

end supervisor

/-- RTI's writes of the PC, the SSP and the PSR reach no general register but R6, whichever cell it selects after
them. -/
theorem loadPsr_reg_other (s : State) (npc sp temp : Word) {r : Reg} (hr : r ≠ .r6) :
    (loadPsr temp { s with pc := npc, ssp := sp }).reg r = s.reg r := by
  cases r with
  | r6 => exact absurd rfl hr
  | _ => rfl

/-- The side effects of a word read reach no general register. -/
theorem reg_readWord {a : Word} {s t : State} {v : Word} (h : readWord a s = .value v t) (r : Reg) :
    t.reg r = s.reg r := by
  obtain ⟨k, c, rfl⟩ := readWord_changes h
  exact (reg_freeCount { s with kbReady := k } r c).trans (reg_kbReady s r k)

/-- The side effects of a word read do not reach the user stack pointer. -/
theorem usp_readWord {a : Word} {s t : State} {v : Word} (h : readWord a s = .value v t) : t.usp = s.usp := by
  obtain ⟨k, c, rfl⟩ := readWord_changes h
  rfl

end Sys2Proof.Machine
end

section
/-! The statements of spec/43_system.md. -/

namespace Sys2Proof.Machine

/-- Settles O40, by the outcomes of the two reads; each leaves all but the devices as it was. -/
theorem rtiReadsAnyStack : Obligations.RtiReadsAnyStack := by
  intro s hp ho
  refine ⟨fun r => exec_rti_refused_pc hp ho, fun npc s1 h1 hn =>
    ⟨fun r => exec_rti_refused_psr hp ho h1 hn, fun temp s2 h2 => ?_⟩⟩
  have hexec : exec .rti s = _ := returnFromInterrupt_run hp ho h1 hn h2
  have husp : s2.usp = s.usp := (usp_readWord h2).trans (usp_readWord h1)
  have hmem : s2.mem = s.mem := (mem_readWord h2).trans (mem_readWord h1)
  refine ⟨_, hexec, rfl, rfl, husp, Mode.bit_ofBit _, rfl, rfl, rfl, fun r hr => ?_, fun a _ => ?_,
    sameDevices_refl s2⟩
  · rw [loadPsr_reg_other _ _ _ _ hr, reg_readWord h2, reg_readWord h1]
  · exact congrArg (Memory.read · a) hmem

/-- Settles O39: both words are read from storage, without side effects, so it is O40 at the state itself. -/
theorem rtiPopsPcThenPsr : Obligations.RtiPopsPcThenPsr := by
  intro s hp ho ha hw
  have haddr : (s.ssp + 2).toNat = s.ssp.toNat + 2 := by bv_omega
  have h1 : readWord s.ssp s = .value (storageWord s.mem s.ssp.toNat) s :=
    readWord_storage s ho (ha.trans (by decide))
  have h2 : readWord (s.ssp + 2) s = .value (storageWord s.mem (s.ssp.toNat + 2)) s :=
    haddr ▸ readWord_storage s ((isOdd_add rfl).trans ho) (haddr ▸ Nat.add_lt_add_right ha 2)
  have hn : isOdd (storageWord s.mem s.ssp.toNat) = false := by
    rw [isOdd_storageWord, decide_eq_false (by omega)]
  obtain ⟨-, hreads⟩ := rtiReadsAnyStack s hp ho
  obtain ⟨-, hpops⟩ := hreads _ _ h1 hn
  obtain ⟨t, hexec, hpc, hssp, husp, hpriv, hcn, hcz, hcp, hreg, hmem, hdev⟩ := hpops _ _ h2
  exact ⟨t, _, hexec, hpc ▸ toNat_storageWord s _, hssp, storageWord_eq_ofNat s _, hpriv, hcn, hcz, hcp, husp,
    hreg, hmem, hdev⟩

/-- Settles O38: a linking jump to the entry of the trap vector table, by its parity. -/
theorem trapEntersTheServiceRoutine : Obligations.TrapEntersTheServiceRoutine := by
  intro s v
  rw [exec_trap]
  refine ⟨fun heven => ?_, fun hodd => ⟨_, toNat_storageWord s _, ?_⟩⟩
  · have hx : isOdd (storageWord s.mem (2 * v.toNat)) = false := by
      rw [isOdd_storageWord, decide_eq_false (by omega)]
    obtain ⟨t, hexec, hlink, hpc, hframe⟩ := linkAndJumpTo_even s hx
    exact ⟨t, hexec, hlink, hpc ▸ toNat_storageWord s _, hframe⟩
  · exact linkAndJumpTo_odd s ((isOdd_storageWord s _).trans (decide_eq_true hodd))

/-- Settles O43, by the two checks of RTI in their order. -/
theorem rtiRaisesOnOddWords : Obligations.RtiRaisesOnOddWords := fun _ hp =>
  ⟨exec_rti_odd_ssp hp, fun ho _ _ => exec_rti_odd_pc hp ho⟩

end Sys2Proof.Machine
end

section
/-! SUPPORT. LDW and STW at the address of a device register, and what they leave unchanged
(spec/60_exceptions.md R195 to R200). -/

namespace Sys2Proof.Machine

/-- A device register has an even address, so the base register that reaches it is even (R61, R195). -/
theorem isOdd_base_of_device {d : DeviceRegister} {a : Word} {b : Reg} {f : BitVec 6} {s : State}
    (hd : (d, a) ∈ deviceAddresses) (ha : wordAddress b f s = a) : isOdd (s.reg b) = false := by
  have heven : ∀ p ∈ deviceAddresses, isOdd p.2 = false := by decide
  rw [← isOdd_wordAddress b f s, ha]
  exact heven _ hd

/-! ## LDW -/

/-- A write of DR after the side effects of a read of a device register. -/
theorem loadsFromDevice_writeDr (dr : Reg) (v : Word) (s : State) (k : Bool) (c : Nat) :
    LoadsFromDevice dr s (writeDr dr v { s with kbReady := k, freeCount := c }) := by
  obtain ⟨-, hcodes, ⟨hregs, hhidden⟩, hpc, hpriv, hmem, hdev⟩ :=
    writeDr_spec { s with kbReady := k, freeCount := c } dr v
  obtain ⟨⟨-, hie, hkbdr⟩, hdisplay, hstreams, hclock, -⟩ := hdev
  exact ⟨hcodes, ⟨fun r hr => (hregs r hr).trans (by cases r <;> rfl), hhidden⟩, hpc, hpriv, hmem, hdisplay,
    hstreams, hie, hkbdr, hclock⟩

/-- LDW at a device register completes with the register's value in DR and the side effects of its read. -/
theorem exec_ldw_device {d : DeviceRegister} {a : Word} {b : Reg} {f : BitVec 6} {s : State} (dr : Reg)
    (hd : (d, a) ∈ deviceAddresses) (ha : wordAddress b f s = a) :
    ∃ t, exec (.ldw dr b f) s = .next t ∧ LoadsFromDevice dr s t ∧
      t.kbReady = (readDevice d s).2.kbReady ∧ t.reg dr = (readDevice d s).1 := by
  have hb := isOdd_base_of_device hd ha
  obtain ⟨-, hdevice, -⟩ := wordAccesses s a 0 (ha ▸ isOdd_wordAddress_of_even f hb)
  obtain ⟨k, c, hside⟩ := readDevice_changes d s
  refine ⟨writeDr dr (readDevice d s).1 (readDevice d s).2, ?_, ?_, by simp [writeDr], (writeDr_spec ..).1⟩
  · rw [exec_ldw_even f dr hb, ha, (hdevice d hd).1, andThen_value]
  · rw [hside]
    exact loadsFromDevice_writeDr ..

/-- The defined bits of the words read (R196, R198, R200, D20). -/
theorem getLsbD_readDevice (s : State) :
    (readDevice .kbsr s).1.getLsbD 15 = s.kbReady ∧ (readDevice .kbsr s).1.getLsbD 14 = s.kbIE ∧
      (readDevice .dsr s).1.getLsbD 15 = s.dsReady ∧ (readDevice .mcr s).1.getLsbD 15 = s.clockEnable := by
  simp only [readDevice, BitVec.getLsbD_or, getLsbD_field, BitVec.getLsbD_extractLsb',
    getLsbD_flagAt (pos := 15) (by decide), getLsbD_flagAt (pos := 14) (by decide)]
  simp

/-- The KBDR reads as the last character, the high byte 0 (R197, D20). -/
theorem toNat_readDevice_kbdr (s : State) : (readDevice .kbdr s).1.toNat = s.kbdr.toNat := by
  have h : readDevice .kbdr s = (zext16 s.kbdr, { s with kbReady := false }) := by
    simp [readDevice, field, zext16]
  rw [h, toNat_zext16 _ (by decide)]

/-! ## STW -/

/-- A write of a device register reaches the device registers and the console only. -/
theorem writesOnlyDevices_writeDevice (d : DeviceRegister) (v : Word) (s : State) :
    WritesOnlyDevices s (writeDevice d v s) := by
  obtain ⟨ie, dd, co, ds, ck, h⟩ := writeDevice_changes d v s
  rw [h]
  exact ⟨⟨fun r _ => by cases r <;> rfl, rfl⟩, ⟨rfl, rfl, rfl⟩, rfl, rfl, fun _ _ => rfl, rfl, rfl⟩

/-- STW at a device register completes with the register written. -/
theorem exec_stw_device {d : DeviceRegister} {a : Word} {b : Reg} {f : BitVec 6} {s : State} {P : State → Prop}
    (sr : Reg) (hd : (d, a) ∈ deviceAddresses) (ha : wordAddress b f s = a)
    (hP : P (writeDevice d (s.reg sr) s)) :
    ∃ t, exec (.stw sr b f) s = .next t ∧ WritesOnlyDevices s t ∧ P t := by
  have hb := isOdd_base_of_device hd ha
  obtain ⟨-, hdevice, -⟩ := wordAccesses s a (s.reg sr) (ha ▸ isOdd_wordAddress_of_even f hb)
  refine ⟨_, ?_, writesOnlyDevices_writeDevice .., hP⟩
  rw [exec_stw_even f sr hb, ha, (hdevice d hd).2]

/-- A write of the DDR while the display is ready (R199, D11). -/
theorem writeDevice_ddr_ready {s : State} (v : Word) (hr : s.dsReady = true) : writeDevice .ddr v s =
    { s with ddr := lowByte v, console := s.console ++ [lowByte v], dsReady := false } :=
  if_pos hr

/-- A character written while the display is not ready is dropped (log entry 10). -/
theorem writeDevice_ddr_not_ready {s : State} (v : Word) (hr : s.dsReady = false) : writeDevice .ddr v s = s :=
  if_neg (ne_true_of_eq_false hr)

/-- A write of the MCR with bit 15 clear stops the clock (R200, D18). -/
theorem writeDevice_mcr_clear {v : Word} (s : State) (hv : v.getLsbD 15 = false) :
    writeDevice .mcr v s = { s with clockEnable := false } := by
  rw [writeDevice, hv, Bool.and_false]

/-- A write of the MCR with bit 15 set changes nothing (R200, D18). -/
theorem writeDevice_mcr_set {v : Word} (s : State) (hv : v.getLsbD 15 = true) : writeDevice .mcr v s = s := by
  rw [writeDevice, hv, Bool.and_true]

end Sys2Proof.Machine
end

section
/-! SUPPORT. What an instruction can do when it raises, said once for all 25 (spec/60_exceptions.md R176 to
R182). -/

namespace Sys2Proof.Machine

/-- The values an instruction checks for bit [0] (R176, D15). -/
inductive CheckedOperand (s : State) : Instr → Word → Prop where
  | jmp (b : Reg) : CheckedOperand s (.jmp b) (s.reg b)
  | ret : CheckedOperand s .ret (s.reg .r7)
  | jsrr (b : Reg) : CheckedOperand s (.jsrr b) (jsrrTarget b s)
  | ldw (dr b : Reg) (f : BitVec 6) : CheckedOperand s (.ldw dr b f) (s.reg b)
  | stw (sr b : Reg) (f : BitVec 6) : CheckedOperand s (.stw sr b f) (s.reg b)
  | trap (k : BitVec 8) : CheckedOperand s (.trap k) (storageWord s.mem (2 * k.toNat))
  | rti {v : Word} (hp : s.priv = .supervisor) (hv : v = s.ssp ∨ ∃ s1, readWord s.ssp s = .value v s1) :
    CheckedOperand s .rti v

/-- The faults an instruction raises, each with the instruction's address (R180, D1). -/
inductive Raises (s : State) : Instr → Fault → Prop where
  | oddOperand {i : Instr} {v : Word} (ho : isOdd v = true) (hc : CheckedOperand s i v) :
    Raises s i (.illegalOperandAddress v (s.pc - 2))
  | userRti (hp : s.priv = .user) : Raises s .rti (.privilegeModeViolation (s.pc - 2))
  | reservedOpcode {i : Instr} (w : Word) : Raises s i (.reservedOpcode w (s.pc - 2))

/-- A checked jump raises for its target. -/
theorem raises_jumpTo {i : Instr} {s : State} {x : Word} {e : Fault} (hc : CheckedOperand s i x)
    (h : jumpTo x s = .fault e) : Raises s i e := by
  obtain ⟨ho, rfl⟩ := jumpTo_fault h
  exact .oddOperand ho hc

/-- A linking jump raises for its target. -/
theorem raises_linkAndJumpTo {i : Instr} {s : State} {x : Word} {e : Fault} (hc : CheckedOperand s i x)
    (h : linkAndJumpTo x s = .fault e) : Raises s i e := by
  obtain ⟨ho, rfl⟩ := linkAndJumpTo_fault h
  exact .oddOperand ho hc

/-- LDW raises for its base register only. -/
theorem exec_ldw_fault {dr b : Reg} {f : BitVec 6} {s : State} {e : Fault}
    (h : exec (.ldw dr b f) s = .fault e) :
    isOdd (s.reg b) = true ∧ e = .illegalOperandAddress (s.reg b) (s.pc - 2) := by
  cases hb : isOdd (s.reg b) with
  | true =>
    rw [exec_ldw_odd f dr hb] at h
    cases h
    exact ⟨rfl, rfl⟩
  | false =>
    rw [exec_ldw_even f dr hb] at h
    obtain ⟨v, s', -, h⟩ := andThen_fault h
    cases h

/-- STW raises for its base register only. -/
theorem exec_stw_fault {sr b : Reg} {f : BitVec 6} {s : State} {e : Fault}
    (h : exec (.stw sr b f) s = .fault e) :
    isOdd (s.reg b) = true ∧ e = .illegalOperandAddress (s.reg b) (s.pc - 2) := by
  cases hb : isOdd (s.reg b) with
  | true =>
    rw [exec_stw_odd f sr hb] at h
    cases h
    exact ⟨rfl, rfl⟩
  | false =>
    rw [exec_stw_even f sr hb] at h
    exact (writeWord_ne_fault _ _ _ _ h).elim

/-- RTI raises for the mode, then for a checked value. -/
theorem raises_rti {s : State} {e : Fault} (h : exec .rti s = .fault e) : Raises s .rti e := by
  obtain ⟨hp, rfl⟩ | ⟨hp, v, ho, rfl, hv⟩ := returnFromInterrupt_fault h
  · exact .userRti hp
  · exact .oddOperand ho (.rti hp hv)

/-- An instruction that raises does so for an odd checked value, the mode or a reserved opcode. -/
theorem raises_of_exec {i : Instr} {s : State} {e : Fault} (h : exec i s = .fault e) : Raises s i e := by
  cases i with
  | br n z p f =>
    rw [exec_br] at h
    cases h
  | jmp b => exact raises_jumpTo (.jmp b) h
  | ret => exact raises_jumpTo .ret h
  | jsrr b => exact raises_linkAndJumpTo (.jsrr b) h
  | trap k =>
    rw [exec_trap] at h
    exact raises_linkAndJumpTo (.trap k) h
  | ldb dr b f =>
    obtain ⟨v, s', -, h⟩ := andThen_fault h
    cases h
  | ldw dr b f =>
    obtain ⟨ho, rfl⟩ := exec_ldw_fault h
    exact .oddOperand ho (.ldw dr b f)
  | stb sr b f => exact (writeByte_ne_fault _ _ _ _ h).elim
  | stw sr b f =>
    obtain ⟨ho, rfl⟩ := exec_stw_fault h
    exact .oddOperand ho (.stw sr b f)
  | rti => exact raises_rti h
  | reserved1010 low => cases h; exact .reservedOpcode _
  | reserved1011 low => cases h; exact .reservedOpcode _
  | _ => cases h

/-- RTI in user mode raises before any other check (R182, D24). -/
theorem exec_rti_user {s : State} (hp : s.priv = .user) :
    exec .rti s = .fault (.privilegeModeViolation (s.pc - 2)) := by
  rw [exec, execRti, returnFromInterrupt, hp]
  rfl

/-- The target of JSRR, the link for R7 (D19). -/
theorem jsrrTarget_eq (b : Reg) (s : State) : jsrrTarget b s = if b = .r7 then s.pc else s.reg b := by
  split
  next hb => rw [hb, jsrrTarget_r7]
  next hb => exact jsrrTarget_other s hb

end Sys2Proof.Machine
end

section
/-! SUPPORT. Interrupt initiation by its two checks and its two pushes, the state it enters when the stack is in
storage, and RTI from the stack it leaves (spec/60_exceptions.md R186, R190). -/

namespace Sys2Proof.Machine

/-- An odd SSP raises before any access (D15). -/
theorem initiateInterrupt_odd_ssp {s : State} (ho : isOdd s.ssp = true) :
    initiateInterrupt s = .fault (.illegalOperandAddress s.ssp s.pc) :=
  if_pos ho

/-- From an even SSP the vector, which is in storage, is read and checked next (R186, D15). -/
theorem initiateInterrupt_even_ssp {s : State} (ho : isOdd s.ssp = false) : initiateInterrupt s =
    if isOdd (storageWord s.mem 0x280) then .fault (.illegalOperandAddress (storageWord s.mem 0x280) s.pc)
    else andThenNext (pushPsrAndPc s.ssp (psrWord s) s.pc { s with priv := .supervisor }) fun s2 =>
      .next { s2 with ssp := s.ssp - 4, pc := storageWord s.mem 0x280 } := by
  have hread : readWord (interruptVectorAddress keyboardIntv) s = .value (storageWord s.mem 0x280) s :=
    readWord_storage s (by decide) (by decide)
  rw [initiateInterrupt, if_neg (ne_true_of_eq_false ho), hread, andThen_value]
  rfl

/-- A word of storage with an even unsigned value is even. -/
theorem isOdd_storageWord_of_even {s : State} {a : Nat} (h : wordAt s a % 2 = 0) :
    isOdd (storageWord s.mem a) = false := by
  rw [isOdd_storageWord, decide_eq_false (by omega)]

/-- A refused push is a refused initiation (R60). -/
theorem initiateInterrupt_refused_push {s : State} {r : Refusal} (ho : isOdd s.ssp = false)
    (hv : isOdd (storageWord s.mem 0x280) = false)
    (hpush : pushPsrAndPc s.ssp (psrWord s) s.pc { s with priv := .supervisor } = .refused r) :
    initiateInterrupt s = .refused r := by
  rw [initiateInterrupt_even_ssp ho, if_neg (ne_true_of_eq_false hv), hpush]
  rfl

/-- The state in which the service routine starts, with the stack in storage (R186): nothing else changes. -/
def interruptEntered (s : State) : State :=
  { s with
    mem := (storeWord (s.ssp.toNat - 4) s.pc (storeWord (s.ssp.toNat - 2) (psrWord s) s)).mem
    priv := .supervisor
    ssp := s.ssp - 4
    pc := storageWord s.mem 0x280 }

/-- What writes of memory, the mode, the SSP and the PC leave unchanged. -/
theorem supervisorEntry_frame (s : State) (m : Memory) (sp x : Word) :
    let t := { s with mem := m, priv := .supervisor, ssp := sp, pc := x }
    SameCodes s t ∧ t.usp = s.usp ∧ (∀ r, r ≠ .r6 → t.reg r = s.reg r) ∧ SameDevices s t := by
  refine ⟨⟨rfl, rfl, rfl⟩, rfl, fun r hr => ?_, sameDevices_refl s⟩
  cases r with
  | r6 => exact absurd rfl hr
  | _ => rfl

/-- A word stored elsewhere leaves a word of storage as it was. -/
theorem storageWord_storeWord_other (s : State) {a a' : Nat} (v : Word) (h : a' + 1 < a ∨ a + 1 < a') :
    storageWord (storeWord a v s).mem a' = storageWord s.mem a' := by
  obtain ⟨-, -, -, -, hframe, -⟩ := writesOnlyStorage_word s a v
  have hne : a' ∉ [a, a + 1] ∧ a' + 1 ∉ [a, a + 1] := by
    simp only [List.mem_cons, List.not_mem_nil, or_false]
    omega
  rw [storageWord, hframe _ hne.1, hframe _ hne.2, ← storageWord]

section stack
variable {s : State} (hlo : 4 ≤ s.ssp.toNat)
include hlo

/-- The two pushes do not wrap. -/
theorem toNat_ssp_sub : (s.ssp - 2).toNat = s.ssp.toNat - 2 ∧ (s.ssp - 4).toNat = s.ssp.toNat - 4 := by
  bv_omega

/-- Interrupt initiation with the stack in storage (R186). -/
theorem initiateInterrupt_storage (ho : isOdd s.ssp = false) (hhi : s.ssp.toNat ≤ storageEnd)
    (hv : isOdd (storageWord s.mem 0x280) = false) : initiateInterrupt s = .next (interruptEntered s) := by
  obtain ⟨h2, h4⟩ := toNat_ssp_sub hlo
  refine initiateInterrupt_run ho hv (h2 ▸ writeWord_storage _ _ ((isOdd_sub rfl).trans ho) ?_)
    (h4 ▸ writeWord_storage _ _ ((isOdd_sub rfl).trans ho) ?_) <;> omega

/-- The PSR is stored at SSP - 2, below which the PC is stored (D8). -/
theorem storageWord_interruptEntered_psr :
    storageWord (interruptEntered s).mem (s.ssp.toNat - 2) = psrWord s :=
  (storageWord_storeWord_other _ _ (by omega)).trans (storageWord_storeWord ..)

/-- The pushes change the four bytes below the SSP only. -/
theorem sameStorageExcept_interruptEntered : SameStorageExcept
    [s.ssp.toNat - 4, s.ssp.toNat - 3, s.ssp.toNat - 2, s.ssp.toNat - 1] s (interruptEntered s) := by
  intro a ha
  simp only [List.mem_cons, List.not_mem_nil, or_false, not_or] at ha
  obtain ⟨-, -, -, -, hpsr, -⟩ :=
    writesOnlyStorage_word s (s.ssp.toNat - 2) (psrWord s)
  obtain ⟨-, -, -, -, hpc, -⟩ :=
    writesOnlyStorage_word (storeWord (s.ssp.toNat - 2) (psrWord s) s) (s.ssp.toNat - 4) s.pc
  refine (hpc a ?_).trans (hpsr a ?_) <;>
  · simp only [List.mem_cons, List.not_mem_nil, or_false]
    omega

end stack

/-- The PC is stored at SSP - 4, last (D8). -/
theorem storageWord_interruptEntered_pc (s : State) :
    storageWord (interruptEntered s).mem (s.ssp.toNat - 4) = s.pc :=
  storageWord_storeWord ..

/-- Two words of storage with the same bytes. -/
theorem wordAt_congr {s t : State} {a : Nat} (hlow : Memory.read s.mem a = Memory.read t.mem a)
    (hhigh : Memory.read s.mem (a + 1) = Memory.read t.mem (a + 1)) : wordAt s a = wordAt t a := by
  rw [wordAt, hlow, hhigh, ← wordAt]

/-- A mode is known by its bit (R35). -/
theorem Mode.bit_injective : Function.Injective Mode.bit :=
  Function.LeftInverse.injective Mode.ofBit_bit

/-- RTI from a stack in storage that holds the PC and the PSR word of `s` resumes at them (R163, R190). -/
theorem exec_rti_psrWord {s u : State} (hpriv : u.priv = .supervisor) (ho : isOdd u.ssp = false)
    (hhi : u.ssp.toNat < 0xFDFE) (heven : isOdd s.pc = false) (hpc : wordAt u u.ssp.toNat = s.pc.toNat)
    (hpsr : wordAt u (u.ssp.toNat + 2) = (psrWord s).toNat) :
    ∃ x, exec .rti u = .next x ∧ x.pc = s.pc ∧ x.priv = s.priv ∧ x.n = s.n ∧ x.z = s.z ∧ x.p = s.p ∧
      x.ssp = u.ssp + 4 ∧ x.usp = u.usp ∧ ∀ r, r ≠ .r6 → x.reg r = u.reg r := by
  have hpopped : wordAt u u.ssp.toNat % 2 = 0 := by
    simpa [isOdd_eq, hpc] using heven
  obtain ⟨x, psr, hexec, hxpc, hxssp, rfl, hxpriv, hxn, hxz, hxp, hxusp, hxreg, -⟩ :=
    rtiPopsPcThenPsr u hpriv ho hhi hpopped
  obtain ⟨h15, h2, h1, h0⟩ := psrWord_flags s
  rw [hpsr, BitVec.ofNat_toNat, BitVec.setWidth_eq] at hxpriv hxn hxz hxp
  exact ⟨x, hexec, BitVec.eq_of_toNat_eq (hxpc.trans hpc), Mode.bit_injective (hxpriv.trans h15), hxn.trans h2,
    hxz.trans h1, hxp.trans h0, hxssp, hxusp, hxreg⟩

end Sys2Proof.Machine
end

section
/-! SUPPORT. The device steps of a boundary, the halted machine, and when the interrupt is taken
(spec/60_exceptions.md R184 to R187, R200, R201). -/

namespace Sys2Proof.Machine

/-- A boundary whose device steps are listed (R72, R201). -/
theorem deviceBoundary_cons {s : State} {steps : List DeviceStep} {later : List (List DeviceStep)}
    (h : s.schedule = steps :: later) :
    deviceBoundary s = steps.foldl deviceStep { s with schedule := later } := by
  simp [deviceBoundary, stepsAt, stepsAfter, passBoundary, h]

/-- A boundary after the listed ones has the next free steps (log entry 9). -/
theorem deviceBoundary_nil {s : State} (h : s.schedule = []) :
    deviceBoundary s = (Config.laterDeviceSteps s.boundaryCount).foldl deviceStep
      { s with schedule := [], boundaryCount := s.boundaryCount + 1 } := by
  simp [deviceBoundary, stepsAt, stepsAfter, passBoundary, h]

/-- What is used up by a boundary, as one formula. -/
theorem passBoundary_eq (s : State) : passBoundary s = { s with
    schedule := s.schedule.tail
    boundaryCount := s.boundaryCount + (if s.schedule = [] then 1 else 0) } := by
  cases h : s.schedule <;> simp [passBoundary, h]

theorem step_halted {s : State} (h : s.halted) : step s = .next s :=
  if_neg (ne_true_of_eq_false h)

/-- A run goes on as its first step does. -/
theorem run_succ_of_next {M : Host.Core} {s t : M.State} (k : Nat) (h : M.step s = .next t) :
    M.run (k + 1) s = M.run k t := by
  rw [Host.Core.run, h]

/-- A running machine performs its boundary, then the interrupt or an instruction (R185). -/
theorem step_running {s : State} (h : s.clockEnable = true) : step s = boundaryThenCycle (deviceBoundary s) :=
  if_pos h

/-- The interrupt is taken on a request in user mode (R184, R187, D9). -/
theorem interruptTaken_iff {s : State} :
    interruptTaken s = true ↔ s.kbReady = true ∧ s.kbIE = true ∧ s.priv = .user := by
  simp only [interruptTaken, interruptRequest, interruptPriority, Config.intrInSupervisor, Bool.or_false,
    Bool.and_eq_true, beq_iff_eq, and_assoc]

end Sys2Proof.Machine
end

section
/-! The statements of spec/60_exceptions.md. -/

namespace Sys2Proof.Machine

/-- Settles O34: a device register's value is read into DR; its defined bits are the device's, and only the
KBDR's read has a side effect on KBSR[15]. -/
theorem ldwReadsTheDeviceRegisters : Obligations.LdwReadsTheDeviceRegisters := by
  intro s dr b f a
  obtain ⟨hkbReady, hkbIE, hdsReady, hclock⟩ := getLsbD_readDevice s
  refine ⟨fun ha => ?_, fun ha => ?_, fun ha => ?_, fun ha => ?_, fun ha => ?_⟩
  · obtain ⟨t, hexec, hframe, hside, hdr⟩ := exec_ldw_device (d := .kbsr) dr (by decide) ha
    exact ⟨t, hexec, hframe, hside, hdr ▸ hkbReady, hdr ▸ hkbIE⟩
  · obtain ⟨t, hexec, hframe, hside, hdr⟩ := exec_ldw_device (d := .kbdr) dr (by decide) ha
    exact ⟨t, hexec, hframe, hside, hdr ▸ toNat_readDevice_kbdr s⟩
  · obtain ⟨t, hexec, hframe, hside, hdr⟩ := exec_ldw_device (d := .dsr) dr (by decide) ha
    exact ⟨t, hexec, hframe, hside, hdr ▸ hdsReady⟩
  · obtain ⟨t, hexec, hframe, hside, -⟩ := exec_ldw_device (d := .ddr) dr (by decide) ha
    exact ⟨t, hexec, hframe, hside⟩
  · obtain ⟨t, hexec, hframe, hside, hdr⟩ := exec_ldw_device (d := .mcr) dr (by decide) ha
    exact ⟨t, hexec, hframe, hside, hdr ▸ hclock⟩

/-- Settles O37, by what a write of each device register does. -/
theorem stwWritesTheDeviceRegisters : Obligations.StwWritesTheDeviceRegisters := by
  intro s sr b f a v
  refine ⟨fun ha => ?_, fun ha => ?_, fun ha => ?_, fun ha => ?_⟩
  · exact exec_stw_device (d := .kbsr) sr (by decide) ha ⟨rfl, sameDevices_refl _⟩
  · obtain ha | ha := ha
    · exact exec_stw_device (d := .kbdr) sr (by decide) ha (sameDevices_refl s)
    · exact exec_stw_device (d := .dsr) sr (by decide) ha (sameDevices_refl s)
  · refine exec_stw_device (d := .ddr) sr (by decide) ha ⟨fun hr => ?_, fun hr => ?_⟩
    · rw [writeDevice_ddr_ready _ hr]
      exact ⟨rfl, rfl, sameDevices_refl _⟩
    · rw [writeDevice_ddr_not_ready _ hr]
      exact sameDevices_refl s
  · refine exec_stw_device (d := .mcr) sr (by decide) ha ⟨fun hv => ?_, fun hv => ?_⟩
    · rw [writeDevice_mcr_clear s hv]
      exact ⟨rfl, sameDevices_refl _⟩
    · rw [writeDevice_mcr_set s hv]
      exact sameDevices_refl s

/-- Settles O41: of the faults an instruction raises, that of RTI in user mode is the only privilege mode
violation. -/
theorem privilegeViolationIsRtiInUserMode : Obligations.PrivilegeViolationIsRtiInUserMode := by
  intro i s a
  constructor
  · intro h
    cases raises_of_exec h with
    | userRti hp => exact ⟨rfl, hp, rfl⟩
  · rintro ⟨rfl, hp, rfl⟩
    exact exec_rti_user hp

/-- Settles O42: the exception is raised for an odd value among those the instruction checks. -/
theorem causesOfIllegalOperandAddress : Obligations.CausesOfIllegalOperandAddress := by
  intro i s v a h
  cases raises_of_exec h with
  | oddOperand ho hc =>
    refine ⟨ho, rfl, ?_⟩
    cases hc with
    | jmp b => exact .inl ⟨b, rfl, rfl⟩
    | ret => exact .inr (.inl ⟨rfl, rfl⟩)
    | jsrr b => exact .inr (.inr (.inl ⟨b, rfl, jsrrTarget_eq b s⟩))
    | ldw dr b f => exact .inr (.inr (.inr (.inl ⟨dr, b, f, rfl, rfl⟩)))
    | stw sr b f => exact .inr (.inr (.inr (.inr (.inl ⟨sr, b, f, rfl, rfl⟩))))
    | trap k => exact .inr (.inr (.inr (.inr (.inr (.inl ⟨k, rfl, toNat_storageWord s _⟩)))))
    | rti hp hv => exact .inr (.inr (.inr (.inr (.inr (.inr ⟨rfl, hp, hv⟩)))))

/-- Settles O53: with the stack in storage initiation is two stores, whose words and frame are known. -/
theorem interruptInitiationSavesPsrAndPc : Obligations.InterruptInitiationSavesPsrAndPc := by
  intro s ho hlo hhi hv
  obtain ⟨hcodes, husp, hregs, hdev⟩ := supervisorEntry_frame s (interruptEntered s).mem (s.ssp - 4) _
  refine ⟨interruptEntered s, initiateInterrupt_storage hlo ho hhi (isOdd_storageWord_of_even hv), rfl, rfl, rfl,
    toNat_storageWord s _, ?_, ?_, hcodes, husp, hregs, sameStorageExcept_interruptEntered hlo, hdev⟩
  · rw [← toNat_storageWord, storageWord_interruptEntered_psr hlo]
  · rw [← toNat_storageWord, storageWord_interruptEntered_pc]

/-- Settles O54, by the outcomes of the two pushes. -/
theorem interruptInitiationPushesAnywhere : Obligations.InterruptInitiationPushesAnywhere := by
  intro s ho hw
  have hv := isOdd_storageWord_of_even hw
  refine ⟨fun r h1 => initiateInterrupt_refused_push ho hv ?_,
    fun s1 h1 => ⟨fun r h2 => initiateInterrupt_refused_push ho hv ?_, fun s2 h2 => ?_⟩⟩
  · rw [pushPsrAndPc, h1]
    rfl
  · rw [pushPsrAndPc, h1, andThenNext_of_next, h2]
  · exact ⟨_, toNat_storageWord s _, initiateInterrupt_run ho hv h1 h2⟩

/-- Settles O56: initiation pushed the words of O53, and RTI pops them as in O39. -/
theorem rtiUndoesInterruptInitiation : Obligations.RtiUndoesInterruptInitiation := by
  intro s t u ho hlo hhi hpc hinit hpriv hssp husp hmem
  obtain ⟨-, -, hvector, -⟩ := initiateInterrupt_next hinit
  have hv : wordAt s 0x280 % 2 = 0 := by
    simpa [isOdd_storageWord] using hvector
  obtain ⟨t', hinit', -, htssp, -, -, hpushedPsr, hpushedPc, -, htusp, -⟩ :=
    interruptInitiationSavesPsrAndPc s ho hlo hhi hv
  cases hinit.symm.trans hinit'
  have hussp : u.ssp = s.ssp - 4 := hssp.trans htssp
  have haddr : u.ssp.toNat = s.ssp.toNat - 4 := hussp ▸ (toNat_ssp_sub hlo).2
  have hpoppedPc : wordAt u u.ssp.toNat = s.pc.toNat := by
    rw [haddr, ← hpushedPc]
    exact wordAt_congr (hmem _ (by omega) (by omega)) (hmem _ (by omega) (by omega))
  have hpoppedPsr : wordAt u (u.ssp.toNat + 2) = (psrWord s).toNat := by
    rw [haddr, show s.ssp.toNat - 4 + 2 = s.ssp.toNat - 2 by omega, ← hpushedPsr]
    exact wordAt_congr (hmem _ (by omega) (by omega)) (hmem _ (by omega) (by omega))
  obtain ⟨x, hexec, hxpc, hxpriv, hxn, hxz, hxp, hxssp, hxusp, hxreg⟩ :=
    exec_rti_psrWord hpriv (by rw [hussp, isOdd_sub rfl, ho]) (by omega) hpc hpoppedPc hpoppedPsr
  refine ⟨x, hexec, hxpc, hxpriv, hxn, hxz, hxp, ?_, hxusp.trans (husp.trans htusp), hxreg⟩
  rw [hxssp, hussp, BitVec.sub_add_cancel]

/-- Settles O57: the steps of a boundary are taken from its list one by one, and each writes its device's registers
only. -/
theorem deviceAgentsTouchOnlyTheirRegisters : Obligations.DeviceAgentsTouchOnlyTheirRegisters := by
  refine ⟨fun s c rest later h => ?_, fun s rest later h => ?_, fun s later h => deviceBoundary_cons h,
    fun s h => ?_, fun s => ?_⟩
  · rw [deviceBoundary_cons h, deviceBoundary_cons rfl]
    rfl
  · rw [deviceBoundary_cons h, deviceBoundary_cons rfl]
    rfl
  · rw [deviceBoundary_nil h, deviceBoundary_cons rfl]
  · obtain ⟨k, c, d, h⟩ := foldl_deviceStep_changes (stepsAt s 0) (passBoundary s)
    rw [deviceBoundary, h, passBoundary_eq]

/-- Settles O51, by induction on the number of steps. -/
theorem haltedMachineStays : Obligations.HaltedMachineStays := by
  intro s h
  refine ⟨step_halted h, fun k => ?_⟩
  induction k with
  | zero => rfl
  | succ k ih => exact (run_succ_of_next (M := Sys2Proof.core) k (step_halted h)).trans ih

/-- Settles O52, by whether the interrupt is taken. -/
theorem interruptIsTakenOnRequestInUserMode : Obligations.InterruptIsTakenOnRequestInUserMode := by
  intro s hs b
  rw [step_running hs, ← interruptTaken_iff]
  exact ⟨fun h => if_pos h, fun h => if_neg h⟩

/-- Settles O55, by the two checks of initiation in their order. -/
theorem interruptInitiationRaisesOnOddWords : Obligations.InterruptInitiationRaisesOnOddWords := by
  refine fun s => ⟨initiateInterrupt_odd_ssp, fun ho hw => ⟨_, toNat_storageWord s _, ?_⟩⟩
  rw [initiateInterrupt_even_ssp ho, isOdd_storageWord]
  exact if_pos (decide_eq_true hw)

end Sys2Proof.Machine
end
